-- ==== Sys2Proof/Word.lean ====
section
/-! DEFINITION. The machine word, the byte, the register index, and the two readings of a word
(spec/00_scope.md R5, R7, R8). -/

namespace Sys2Proof

/-- A 32-bit word: register, program counter, memory word, encoded instruction (R5, R8). -/
abbrev Word := BitVec 32

/-- One byte of memory (20_memory.md R50). -/
abbrev Byte := BitVec 8

/-- The index of a general register, 0 to 31 (10_state.md R20). -/
abbrev RegIx := Fin 32

/-- A shift count of the instruction's 5-bit field, 0 to 31 (30_encoding.md R84). -/
abbrev ShiftCount := Fin 32

/-- `s32(v)`: the two's-complement value of a word (R8). -/
abbrev s32 (v : Word) : Int := v.toInt

/-- `u32(v)`: the unsigned value of a word (R8). -/
abbrev u32 (v : Word) : Nat := v.toNat

/-- `bits32(n)`: the 32-bit pattern of an integer modulo 2^32 (R8). -/
abbrev bits32 (n : Int) : Word := BitVec.ofInt 32 n

/-- `bits64(n)`: the 64-bit pattern of an integer modulo 2^64 (R8). -/
abbrev bits64 (n : Int) : BitVec 64 := BitVec.ofInt 64 n

/-- `MEM_CAPACITY`: 65536 − 4 bytes (R5). -/
abbrev memCapacity : Nat := 65532

end Sys2Proof
end

