-- ==== Sys2Proof/Config.lean ====
section
/-! DEFINITION. The parameters the spec leaves open (spec/00_scope.md R6), the header the loader
takes (70_reset_and_hazards.md R290), and the values only the host knows (free values).
The default of each parameter stands in Decode.lean (the code maps) and Machine/Defaults.lean. -/

namespace Sys2Proof

/-- `OPCODE_MAP`: the opcode of each I-form and J-form instruction (30_encoding.md R85). `OP_REG` is
0 and no parameter. -/
structure OpcodeMap where
  bgez : BitVec 6
  j : BitVec 6
  jal : BitVec 6
  beq : BitVec 6
  bne : BitVec 6
  blez : BitVec 6
  bgtz : BitVec 6
  bltz : BitVec 6
  addi : BitVec 6
  andi : BitVec 6
  ori : BitVec 6
  xori : BitVec 6
  lw : BitVec 6
  lbu : BitVec 6
  sb : BitVec 6
  sw : BitVec 6
  deriving DecidableEq, Repr

/-- `FUNCT_MAP`: the function code of each R-form instruction (30_encoding.md R86). -/
structure FunctMap where
  sll : BitVec 6
  srl : BitVec 6
  jr : BitVec 6
  syscall : BitVec 6
  mfhi : BitVec 6
  mflo : BitVec 6
  mul : BitVec 6
  div : BitVec 6
  add : BitVec 6
  sub : BitVec 6
  and : BitVec 6
  or : BitVec 6
  xor : BitVec 6
  nor : BitVec 6
  deriving DecidableEq, Repr

/-- `SYSCALL_MAP`: the code of each syscall service (30_encoding.md R87). -/
structure SyscallMap where
  printStr : BitVec 20
  exit : BitVec 20
  printChar : BitVec 20
  readChar : BitVec 20
  startTracing : BitVec 20
  stopTracing : BitVec 20
  deriving DecidableEq, Repr

/-- The three code maps a decoder is built with (R6). -/
structure Maps where
  op : OpcodeMap
  funct : FunctMap
  sys : SyscallMap
  deriving DecidableEq, Repr

/-- `BYTE_ORDER`: the order of the four bytes of a word (20_memory.md R52). -/
inductive ByteOrder where
  | little
  | big
  deriving DecidableEq, Repr

/-- `DIV_OVERFLOW_POLICY`: what `div` does for −2^31 / −1 (41_register_alu.md R134). -/
inductive DivOverflowPolicy where
  | fault
  | wrap
  deriving DecidableEq, Repr

/-- `SRL_FILL`: the bit `srl` shifts in (41_register_alu.md R142). -/
inductive SrlFill where
  | zero
  | sign
  deriving DecidableEq, Repr

/-- `PRINT_STR_RESULT`: whether `print_str` writes the result register (42_register_control.md R163). -/
inductive PrintStrResult where
  | unchanged
  | draw
  deriving DecidableEq, Repr

/-- The named parameters of R6, one field each; State holds one Config that no step changes
(log 2). `hostSilentAt` is all of `HOST` that is not a drawn value: `some n` says that a `read_char`
made when `n` values have been drawn is never answered (60_exceptions.md R262; log 8). -/
structure Config where
  maps : Maps
  byteOrder : ByteOrder
  divOverflow : DivOverflowPolicy
  srlFill : SrlFill
  traceInit : Bool
  printStrResult : PrintStrResult
  exitStatusFault : Nat
  hostSilentAt : Option Nat
  deriving DecidableEq, Repr

/-- The header of a binary object file, the loader's input: five 32-bit values
(70_reset_and_hazards.md R290). -/
structure Header where
  textStart : Word
  textLength : Word
  dataStart : Word
  dataLength : Word
  stackBottom : Word
  deriving DecidableEq, Repr

/-- The value the host returns to a `print_char`, a draw with no law (R164, D17): a free value,
applied to the number of values drawn before it (log 7). -/
opaque Config.freePrintCharResult : Nat → Word

/-- The value the host returns to a `read_char`, end of input included, a draw with no law
(R165, D17): a free value (log 7). -/
opaque Config.freeReadCharValue : Nat → Word

/-- The value `print_str` puts in the result register under `PRINT_STR_RESULT = draw` (R163, D18):
a free value (log 7). -/
opaque Config.freePrintStrResult : Nat → Word

end Sys2Proof
end

