-- ==== Sys2Proof/Syntax.lean ====
section
/-! DEFINITION. The instructions: one constructor per row of spec/opcode_table.json. Operands stand
in the order of the assembler syntax (30_encoding.md R91); the fields an instruction ignores (R90) are
not part of it. -/

namespace Sys2Proof

inductive Instr where
  -- register form: ALU (41_register_alu.md)
  | add (rd rs rt : RegIx)
  | sub (rd rs rt : RegIx)
  | mul (rs rt : RegIx)
  | div (rs rt : RegIx)
  | mfhi (rd : RegIx)
  | mflo (rd : RegIx)
  | and (rd rs rt : RegIx)
  | or (rd rs rt : RegIx)
  | nor (rd rs rt : RegIx)
  | xor (rd rs rt : RegIx)
  | sll (rd rt : RegIx) (shamt : ShiftCount)
  | srl (rd rt : RegIx) (shamt : ShiftCount)
  -- register form: control (42_register_control.md)
  | jr (rs : RegIx)
  | syscall (code : BitVec 20)
  -- immediate form: ALU (43_immediate_alu.md)
  | addi (rt rs : RegIx) (imm : BitVec 16)
  | andi (rt rs : RegIx) (imm : BitVec 16)
  | ori (rt rs : RegIx) (imm : BitVec 16)
  | xori (rt rs : RegIx) (imm : BitVec 16)
  -- immediate form: branches (44_branches.md)
  | beq (rs rt : RegIx) (imm : BitVec 16)
  | bne (rs rt : RegIx) (imm : BitVec 16)
  | bgez (rs : RegIx) (imm : BitVec 16)
  | bgtz (rs : RegIx) (imm : BitVec 16)
  | blez (rs : RegIx) (imm : BitVec 16)
  | bltz (rs : RegIx) (imm : BitVec 16)
  -- immediate form: loads and stores (45_load_store.md)
  | lbu (rt rs : RegIx) (imm : BitVec 16)
  | lw (rt rs : RegIx) (imm : BitVec 16)
  | sb (rt rs : RegIx) (imm : BitVec 16)
  | sw (rt rs : RegIx) (imm : BitVec 16)
  -- jump form (46_jumps.md)
  | j (addr : BitVec 26)
  | jal (addr : BitVec 26)
  -- the six syscall services (42_register_control.md R162 to R167, 30_encoding.md R93)
  | exit
  | printStr
  | printChar
  | readChar
  | startTracing
  | stopTracing
  deriving DecidableEq, Repr

end Sys2Proof
end

