-- ==== Sys2Proof/WellFormed.lean ====
section
/-! DEFINITION. What a well-formed code map, configuration and instruction is. -/

namespace Sys2Proof

/-- The seventeen values of `OPCODE_MAP`, `OP_REG` = 0 first (30_encoding.md R85), in the order in which
the decoder tests them. -/
def OpcodeMap.values (m : OpcodeMap) : List (BitVec 6) :=
  [0, m.j, m.jal, m.addi, m.andi, m.ori, m.xori, m.beq, m.bne, m.bgez, m.bgtz, m.blez, m.bltz,
    m.lbu, m.lw, m.sb, m.sw]

/-- The fourteen values of `FUNCT_MAP` (30_encoding.md R86), in the order in which the decoder tests
them. -/
def FunctMap.values (m : FunctMap) : List (BitVec 6) :=
  [m.add, m.sub, m.mul, m.div, m.mfhi, m.mflo, m.and, m.or, m.nor, m.xor, m.sll, m.srl, m.jr,
    m.syscall]

/-- The six values of `SYSCALL_MAP` (30_encoding.md R87), in the order in which the decoder tests
them. -/
def SyscallMap.values (m : SyscallMap) : List (BitVec 20) :=
  [m.exit, m.printStr, m.printChar, m.readChar, m.startTracing, m.stopTracing]

/-- R88: all seventeen opcode values are distinct (so the two jump opcodes are distinct and
non-zero). -/
abbrev OpcodeMap.WellFormed (m : OpcodeMap) : Prop := m.values.Nodup

/-- R88: the fourteen function codes are distinct. -/
abbrev FunctMap.WellFormed (m : FunctMap) : Prop := m.values.Nodup

/-- R88: the six syscall codes are distinct. -/
abbrev SyscallMap.WellFormed (m : SyscallMap) : Prop := m.values.Nodup

/-- R88 for the three maps together. -/
abbrev Maps.WellFormed (m : Maps) : Prop :=
  m.op.WellFormed ∧ m.funct.WellFormed ∧ m.sys.WellFormed

/-- A configuration a machine may have: maps as R88 demands, and a non-zero fault status
(60_exceptions.md R257). -/
abbrev Config.WellFormed (c : Config) : Prop :=
  c.maps.WellFormed ∧ c.exitStatusFault ≠ 0

/-- An instruction that is the one reading of its words: `syscall code` stands for the codes that
name no service, since a service's word is the service's own constructor (R93; log 16). Every other
range (registers, counts, immediates, fields: R91) is in the operand's type. -/
def Instr.WellFormed (m : Maps) : Instr → Bool
  | .syscall code => decide (code ∉ m.sys.values)
  | _ => true

end Sys2Proof
end

