-- ==== Sys2Proof/Decode.lean ====
section
/-! DEFINITION. The encoding tables, the decoder and the encoder (spec/30_encoding.md), the byte order
of a word (20_memory.md R52), and the host's entry point `decodeTableWord`. -/

namespace Sys2Proof

/-! ## The default code maps (30_encoding.md R85 to R87; log 3) -/

/-- The default `OPCODE_MAP` (R85). -/
def OpcodeMap.default : OpcodeMap where
  bgez := 1
  j := 2
  jal := 3
  beq := 4
  bne := 5
  blez := 6
  bgtz := 7
  bltz := 8
  addi := 9
  andi := 12
  ori := 13
  xori := 14
  lw := 35
  lbu := 36
  sb := 40
  sw := 43

/-- The default `FUNCT_MAP` (R86). -/
def FunctMap.default : FunctMap where
  sll := 0
  srl := 3
  jr := 8
  syscall := 12
  mfhi := 16
  mflo := 18
  mul := 25
  div := 27
  add := 33
  sub := 35
  and := 36
  or := 37
  xor := 38
  nor := 39

/-- The default `SYSCALL_MAP` (R87). -/
def SyscallMap.default : SyscallMap where
  printStr := 4
  exit := 10
  printChar := 11
  readChar := 12
  startTracing := 2046
  stopTracing := 2047

/-- The three default maps. -/
def Maps.default : Maps where
  op := .default
  funct := .default
  sys := .default

/-! ## Byte order (20_memory.md R52) -/

/-- The word whose bytes at addresses `4k` to `4k+3` are `b0` to `b3` (R52). -/
def wordOfBytes (o : ByteOrder) (b0 b1 b2 b3 : Byte) : Word :=
  match o with
  | .little => b3 ++ b2 ++ b1 ++ b0
  | .big => b0 ++ b1 ++ b2 ++ b3

/-- Byte `n` (0 to 3) of a word counted from its least significant end: bits `8n+7:8n`. -/
def wordByte (n : Nat) (v : Word) : Byte := v.extractLsb' (8 * n) 8

/-- The byte of the word `v` at the address `4k+j` (R52). -/
def byteAt (o : ByteOrder) (j : Nat) (v : Word) : Byte :=
  match o with
  | .little => wordByte j v
  | .big => wordByte (3 - j) v

/-! ## Fields (30_encoding.md R81) -/

/-- `w[31:26]`. -/
def opOf (w : Word) : BitVec 6 := w.extractLsb' 26 6
/-- `w[25:21]`, a register index (R84). -/
def rsOf (w : Word) : RegIx := (w.extractLsb' 21 5).toFin
/-- `w[20:16]`, a register index (R84). -/
def rtOf (w : Word) : RegIx := (w.extractLsb' 16 5).toFin
/-- `w[15:11]`, a register index (R84). -/
def rdOf (w : Word) : RegIx := (w.extractLsb' 11 5).toFin
/-- `w[10:6]`, a shift count (R84). -/
def shamtOf (w : Word) : ShiftCount := (w.extractLsb' 6 5).toFin
/-- `w[5:0]`. -/
def functOf (w : Word) : BitVec 6 := w.extractLsb' 0 6
/-- `w[25:6]`, the syscall code (R81, D5). -/
def codeOf (w : Word) : BitVec 20 := w.extractLsb' 6 20
/-- `w[15:0]`. -/
def immOf (w : Word) : BitVec 16 := w.extractLsb' 0 16
/-- `w[25:0]`. -/
def addrOf (w : Word) : BitVec 26 := w.extractLsb' 0 26

/-! ## The decoder: word to shape (R82), shape to instruction (R83, R112) -/

/-- The decoded instruction of R82 and R83: a tagged union of three shapes. -/
inductive Shape where
  | r (rs rt rd : RegIx) (shamt : ShiftCount) (funct : BitVec 6) (code : BitVec 20)
  | i (op : BitVec 6) (rs rt : RegIx) (imm : BitVec 16)
  | j (op : BitVec 6) (addr : BitVec 26)
  deriving DecidableEq, Repr

/-- `decode(w)` of R82: total, the shape selected by the opcode field alone. -/
def shapeOf (m : Maps) (w : Word) : Shape :=
  if opOf w = 0 then .r (rsOf w) (rtOf w) (rdOf w) (shamtOf w) (functOf w) (codeOf w)
  else if opOf w = m.op.j ∨ opOf w = m.op.jal then .j (opOf w) (addrOf w)
  else .i (opOf w) (rsOf w) (rtOf w) (immOf w)

/-- What dispatch selects for a shape: an instruction, or one of the two default arms of R112. -/
inductive Decoded where
  | instr (i : Instr)
  | unknownOpcode (op : BitVec 6)
  | unknownFunctionCode (funct : BitVec 6)
  deriving DecidableEq, Repr

/-- A `syscall` word's instruction: the service its code names (R87, R93), or `syscall code`. -/
def syscallInstr (m : SyscallMap) (code : BitVec 20) : Instr :=
  if code = m.exit then .exit
  else if code = m.printStr then .printStr
  else if code = m.printChar then .printChar
  else if code = m.readChar then .readChar
  else if code = m.startTracing then .startTracing
  else if code = m.stopTracing then .stopTracing
  else .syscall code

/-- The R arm of R112: match on `funct`, one default arm. -/
def selectR (m : Maps) (rs rt rd : RegIx) (shamt : ShiftCount) (funct : BitVec 6)
    (code : BitVec 20) : Decoded :=
  if funct = m.funct.add then .instr (.add rd rs rt)
  else if funct = m.funct.sub then .instr (.sub rd rs rt)
  else if funct = m.funct.mul then .instr (.mul rs rt)
  else if funct = m.funct.div then .instr (.div rs rt)
  else if funct = m.funct.mfhi then .instr (.mfhi rd)
  else if funct = m.funct.mflo then .instr (.mflo rd)
  else if funct = m.funct.and then .instr (.and rd rs rt)
  else if funct = m.funct.or then .instr (.or rd rs rt)
  else if funct = m.funct.nor then .instr (.nor rd rs rt)
  else if funct = m.funct.xor then .instr (.xor rd rs rt)
  else if funct = m.funct.sll then .instr (.sll rd rt shamt)
  else if funct = m.funct.srl then .instr (.srl rd rt shamt)
  else if funct = m.funct.jr then .instr (.jr rs)
  else if funct = m.funct.syscall then .instr (syscallInstr m.sys code)
  else .unknownFunctionCode funct

/-- The I arm of R112: match on `op`, one default arm. -/
def selectI (m : Maps) (op : BitVec 6) (rs rt : RegIx) (imm : BitVec 16) : Decoded :=
  if op = m.op.addi then .instr (.addi rt rs imm)
  else if op = m.op.andi then .instr (.andi rt rs imm)
  else if op = m.op.ori then .instr (.ori rt rs imm)
  else if op = m.op.xori then .instr (.xori rt rs imm)
  else if op = m.op.beq then .instr (.beq rs rt imm)
  else if op = m.op.bne then .instr (.bne rs rt imm)
  else if op = m.op.bgez then .instr (.bgez rs imm)
  else if op = m.op.bgtz then .instr (.bgtz rs imm)
  else if op = m.op.blez then .instr (.blez rs imm)
  else if op = m.op.bltz then .instr (.bltz rs imm)
  else if op = m.op.lbu then .instr (.lbu rt rs imm)
  else if op = m.op.lw then .instr (.lw rt rs imm)
  else if op = m.op.sb then .instr (.sb rt rs imm)
  else if op = m.op.sw then .instr (.sw rt rs imm)
  else .unknownOpcode op

/-- The J arm of R112, which has no default: a J shape's `op` is `OP_J` or `OP_JAL` (R82). -/
def selectJ (m : Maps) (op : BitVec 6) (addr : BitVec 26) : Decoded :=
  if op = m.op.j then .instr (.j addr) else .instr (.jal addr)

/-- The two-level match of R112 on a decoded shape. -/
def select (m : Maps) : Shape → Decoded
  | .r rs rt rd shamt funct code => selectR m rs rt rd shamt funct code
  | .i op rs rt imm => selectI m op rs rt imm
  | .j op addr => selectJ m op addr

/-- The decoder with dispatch's choice of the instruction: total on every word, an unknown opcode or
function code answered by name (R82, R89). -/
def decode (m : Maps) (w : Word) : Decoded := select m (shapeOf m w)

/-- Decoding the four bytes of an instruction as they lie in memory (R80, 20_memory.md R61). -/
def decodeBytes (m : Maps) (o : ByteOrder) (b0 b1 b2 b3 : Byte) : Decoded :=
  decode m (wordOfBytes o b0 b1 b2 b3)

/-! ## The encoder (30_encoding.md R81, R91) -/

/-- A 5-bit field holding a register index or a shift count. -/
def field5 (n : Fin 32) : BitVec 5 := .ofFin n

/-- The R-form word (R81). -/
def wordR (rs rt rd : RegIx) (shamt : ShiftCount) (funct : BitVec 6) : Word :=
  (0 : BitVec 6) ++ field5 rs ++ field5 rt ++ field5 rd ++ field5 shamt ++ funct

/-- The `syscall` word (R81, D5). -/
def wordSyscall (m : Maps) (code : BitVec 20) : Word :=
  (0 : BitVec 6) ++ code ++ m.funct.syscall

/-- The I-form word (R81). -/
def wordI (op : BitVec 6) (rs rt : RegIx) (imm : BitVec 16) : Word :=
  op ++ field5 rs ++ field5 rt ++ imm

/-- The J-form word (R81). -/
def wordJ (op : BitVec 6) (addr : BitVec 26) : Word := op ++ addr

/-- The canonical encoding: 0 in every ignored field (R90, R91). -/
def encode (m : Maps) : Instr → Word
  | .add rd rs rt => wordR rs rt rd 0 m.funct.add
  | .sub rd rs rt => wordR rs rt rd 0 m.funct.sub
  | .mul rs rt => wordR rs rt 0 0 m.funct.mul
  | .div rs rt => wordR rs rt 0 0 m.funct.div
  | .mfhi rd => wordR 0 0 rd 0 m.funct.mfhi
  | .mflo rd => wordR 0 0 rd 0 m.funct.mflo
  | .and rd rs rt => wordR rs rt rd 0 m.funct.and
  | .or rd rs rt => wordR rs rt rd 0 m.funct.or
  | .nor rd rs rt => wordR rs rt rd 0 m.funct.nor
  | .xor rd rs rt => wordR rs rt rd 0 m.funct.xor
  | .sll rd rt shamt => wordR 0 rt rd shamt m.funct.sll
  | .srl rd rt shamt => wordR 0 rt rd shamt m.funct.srl
  | .jr rs => wordR rs 0 0 0 m.funct.jr
  | .syscall code => wordSyscall m code
  | .addi rt rs imm => wordI m.op.addi rs rt imm
  | .andi rt rs imm => wordI m.op.andi rs rt imm
  | .ori rt rs imm => wordI m.op.ori rs rt imm
  | .xori rt rs imm => wordI m.op.xori rs rt imm
  | .beq rs rt imm => wordI m.op.beq rs rt imm
  | .bne rs rt imm => wordI m.op.bne rs rt imm
  | .bgez rs imm => wordI m.op.bgez rs 0 imm
  | .bgtz rs imm => wordI m.op.bgtz rs 0 imm
  | .blez rs imm => wordI m.op.blez rs 0 imm
  | .bltz rs imm => wordI m.op.bltz rs 0 imm
  | .lbu rt rs imm => wordI m.op.lbu rs rt imm
  | .lw rt rs imm => wordI m.op.lw rs rt imm
  | .sb rt rs imm => wordI m.op.sb rs rt imm
  | .sw rt rs imm => wordI m.op.sw rs rt imm
  | .j addr => wordJ m.op.j addr
  | .jal addr => wordJ m.op.jal addr
  | .exit => wordSyscall m m.sys.exit
  | .printStr => wordSyscall m m.sys.printStr
  | .printChar => wordSyscall m m.sys.printChar
  | .readChar => wordSyscall m m.sys.readChar
  | .startTracing => wordSyscall m m.sys.startTracing
  | .stopTracing => wordSyscall m m.sys.stopTracing

/-- The bits of an instruction's word that are not an ignored field (R90). -/
def usedBits : Instr → Word
  | .add _ _ _ | .sub _ _ _ | .and _ _ _ | .or _ _ _ | .nor _ _ _ | .xor _ _ _ => 0xFFFFF83F
  | .mul _ _ | .div _ _ => 0xFFFF003F
  | .mfhi _ | .mflo _ => 0xFC00F83F
  | .sll _ _ _ | .srl _ _ _ => 0xFC1FFFFF
  | .jr _ => 0xFFE0003F
  | .bgez _ _ | .bgtz _ _ | .blez _ _ | .bltz _ _ => 0xFFE0FFFF
  | .syscall _ | .exit | .printStr | .printChar | .readChar | .startTracing | .stopTracing
  | .addi _ _ _ | .andi _ _ _ | .ori _ _ _ | .xori _ _ _ | .beq _ _ _ | .bne _ _ _
  | .lbu _ _ _ | .lw _ _ _ | .sb _ _ _ | .sw _ _ _ | .j _ | .jal _ => 0xFFFFFFFF

/-! ## The host's entry point -/

/-- The word of a table row: `nbits` bits of `w`, every bit above them 0. -/
def tableWord (nbits w : Nat) : Word := BitVec.ofNat 32 (w % 2 ^ nbits)

/-- The instruction the decoder reads, under the default maps and byte order, from the word `w` of
`nbits` bits laid out in memory order; none where it answers an unknown code or where the row is
wider than the one word every instruction has (R80). -/
def decodeTableWord (nbits w : Nat) : Option Instr :=
  if nbits ≤ 32 then
    let v := tableWord nbits w
    match decodeBytes .default .little (byteAt .little 0 v) (byteAt .little 1 v)
        (byteAt .little 2 v) (byteAt .little 3 v) with
    | .instr i => some i
    | .unknownOpcode _ => none
    | .unknownFunctionCode _ => none
  else none

end Sys2Proof
end

