-- ==== Sys2Proof/Machine/Defaults.lean ====
section
/-! DEFINITION. The default of every parameter of spec/00_scope.md R6, and the header State.reset is
loaded from (logs 3, 4, 5, 6, 8, 12). -/

namespace Sys2Proof

/-- The defaults R6 gives; where R6 gives none (`TRACE_INIT`, `EXIT_STATUS_FAULT`, the host) the
values logs 4, 5 and 8 name. DESIGN CHOICE for those three. -/
def Config.default : Config where
  maps := .default
  byteOrder := .little
  divOverflow := .fault
  srlFill := .zero
  traceInit := false
  printStrResult := .unchanged
  exitStatusFault := 1
  hostSilentAt := none

/-- The header of State.reset: an empty image with the stack layout of the spec's base state
(95_test_vectors.md, L2). DESIGN CHOICE (log 6): the spec fixes no header. -/
def resetHeader : Header where
  textStart := 0
  textLength := 0
  dataStart := 0x1000
  dataLength := 0
  stackBottom := 0x8000

end Sys2Proof
end

