-- ==== Sys2Proof/Machine/State.lean ====
section
/-! DEFINITION. The state of the machine as plain data (spec/10_state.md), the spec's own fault causes
and run states (60_exceptions.md), what the host is sent, and the two reasons a step may not answer a
next state. -/

namespace Sys2Proof.Machine

/-- Memory: (address, byte) pairs in one canonical form (Memory.wf, Machine/Ops.lean); a byte not listed
reads 0 (20_memory.md R62; log 13). -/
abbrev Memory := List Host.Cell

/-- The invariant kinds of 60_exceptions.md R251, R252. -/
inductive InvariantKind where
  | pcAlign
  | pcRange
  | gpAlign
  | spAlign
  | fpAlign
  | stackOrder
  | zeroReg
  deriving DecidableEq, Repr

/-- The spec's fault causes, each with the value it records (60_exceptions.md R251). -/
inductive Cause where
  | invariantViolation (kind : InvariantKind)
  | unknownOpcode (op : BitVec 6)
  | unknownFunctionCode (funct : BitVec 6)
  | unknownSyscallCode (code : BitVec 20)
  | divideByZero
  | divideOverflow
  | memoryOutOfRange (addr : Word)
  deriving DecidableEq, Repr

/-- The run state (10_state.md R29): `Faulted(reason, address, info)` has its info inside the cause. -/
inductive RunState where
  | running
  | exited (status : Nat)
  | faulted (cause : Cause) (address : Word)
  deriving DecidableEq, Repr

/-- One printed entry of a memory range dump (60_exceptions.md R266): the word, and whether it carries
the ellipsis marker. -/
structure DumpEntry where
  address : Word
  value : Word
  ellipsis : Bool
  deriving DecidableEq, Repr

/-- What one trace renders (60_exceptions.md R263 to R267), as data and in its lines; the characters
are out of scope (00_scope.md R3; log 10). -/
structure TraceRecord where
  /-- All 32 registers, six a line (R264). -/
  registers : List (List (RegIx × Word))
  /-- Always shown (R265). -/
  pc : Word
  /-- (HI, LO), shown when at least one is non-zero (R265). -/
  hiLo : Option (Word × Word)
  /-- The data segment `[GP, SP)`, five entries a line (R266). -/
  data : List (List DumpEntry)
  /-- The stack segment `[SP, FP]`, five entries a line (R266). -/
  stack : List (List DumpEntry)
  /-- The address of the instruction about to execute (R267). -/
  address : Word
  /-- The word of the instruction about to execute, for the external formatter (R267). -/
  word : Word
  deriving DecidableEq, Repr

/-- What the core sends the host: one constructor per interaction of 60_exceptions.md R262. -/
inductive HostEvent where
  /-- `Host.exit(status)`. -/
  | exit (status : Nat)
  /-- `Host.print_str(s)`: the bytes before the NUL. -/
  | printStr (bytes : List Byte)
  /-- `Host.print_char(c)`. -/
  | printChar (byte : Byte)
  /-- `Host.read_char()`: a request. -/
  | readChar
  /-- `Host.trace(state)`. -/
  | trace (record : TraceRecord)
  /-- The fault diagnostic, and the process exit status the run ends with (R257). -/
  | diagnostic (cause : Cause) (address : Word) (status : Nat)
  deriving DecidableEq, Repr

/-- Why a step answers no next state although nothing is refused. Every fault of the SPEC is a next
state with `run = Faulted` (log 1); these are the cases in which the spec gives no step at all. -/
inductive Fault where
  /-- Raised by `step` when `run = Exited(status)`: the core has no step (R110). Safe. -/
  | runExited
  /-- Raised by `step` when `run = Faulted(...)`: the core has no step (R110). Safe. -/
  | runFaulted
  /-- Raised by `read_char` (and `syscall SC_READ_CHAR`) when the host never answers: the step never
  completes (R165, R262, I8). A stuck state, safe (log 8). -/
  | readCharUnanswered
  deriving DecidableEq, Repr

/-- Why an instruction has no meaning. No arm of exec uses it. -/
inductive Refusal where
  /-- An instruction of the table the model gives no meaning to yet; raised by exec's arm. Safe. -/
  | notModelled (mnemonic : String)
  deriving DecidableEq, Repr

/-- The state. The first seven fields are the spec's (10_state.md); `cfg` holds the parameters of
00_scope.md R6, which no step changes (log 2); `hostDraws` and `hostLog` are the MODEL's own
(logs 7, 9). -/
structure State where
  /-- `REG[0..31]` (R20, R22); slot 0 is never written and `x[0]` reads 0 (log 11). -/
  regs : Vector Word 32
  /-- R25. -/
  hi : Word
  /-- R25. -/
  lo : Word
  /-- R26. -/
  pc : Word
  /-- 20_memory.md R50. -/
  mem : Memory
  /-- R29. -/
  run : RunState
  /-- The tracing flag (R30). -/
  trace : Bool
  /-- The parameters (00_scope.md R6; log 2). -/
  cfg : Config
  /-- How many values the host has returned: what the free values are applied to (log 7). -/
  hostDraws : Nat
  /-- What the core has sent the host, oldest first (60_exceptions.md R262; log 9). -/
  hostLog : List HostEvent
  deriving DecidableEq, Repr

/-- The machine right after the load of `resetHeader` with an empty image under the default
parameters (10_state.md R34; logs 3 to 9, 12 to 14). -/
def State.reset : State where
  regs := (((Vector.replicate 32 0).set 28 resetHeader.dataStart).set 29
    resetHeader.stackBottom).set 30 resetHeader.stackBottom
  hi := 0
  lo := 0
  pc := resetHeader.textStart
  mem := []
  run := .running
  trace := Config.default.traceInit
  cfg := .default
  hostDraws := 0
  hostLog := []

/-- What an instruction or a step answers. -/
abbrev Result := Host.Outcome State Fault Refusal

end Sys2Proof.Machine
end

