-- ==== Sys2Proof/Machine/Ops.lean ====
section
/-! DEFINITION. The named operations over memory, registers and the host (spec/00_scope.md R10), and
fault entry (60_exceptions.md R257), which every fault of every instruction goes through. There is no
return from a fault (R259). -/

namespace Sys2Proof.Machine

/-! ## Memory (20_memory.md) -/

/-- What a byte of memory that is not listed reads as (R62; log 13). -/
def unlistedByte : Byte := 0

/-- Addresses strictly rising. -/
def Memory.rising : Memory → Bool
  | [] => true
  | [_] => true
  | c :: d :: m => decide (c.1 < d.1) && Memory.rising (d :: m)

/-- The canonical form: addresses strictly rising, and no entry equal to what an unlisted byte reads
as, so that equal memories are equal data. -/
def Memory.wf (m : Memory) : Bool :=
  m.rising && m.all fun c => decide (c.2 ≠ unlistedByte)

/-- Every listed address exists (R50). -/
def Memory.inRange (m : Memory) : Bool := m.all fun c => decide (c.1 < memCapacity)

/-- `byte[a]` (R51). -/
def Memory.read : Memory → Nat → Byte
  | [], _ => unlistedByte
  | (k, v) :: m, a => if k = a then v else Memory.read m a

/-- A list with one more cell in front, unless the byte is what an unlisted one reads as. -/
def Memory.consCell (a : Nat) (b : Byte) (m : Memory) : Memory :=
  if b = unlistedByte then m else (a, b) :: m

/-- `byte[a] := b` (R51), keeping the canonical form. -/
def Memory.write : Memory → Nat → Byte → Memory
  | [], a, b => Memory.consCell a b []
  | (k, v) :: m, a, b =>
    if a < k then Memory.consCell a b ((k, v) :: m)
    else if a = k then Memory.consCell a b m
    else (k, v) :: Memory.write m a b

/-- `word[k]`: the bytes `4k` to `4k+3` in the machine's byte order (R51, R52). -/
def Memory.readWord (o : ByteOrder) (m : Memory) (k : Nat) : Word :=
  wordOfBytes o (m.read (4 * k)) (m.read (4 * k + 1)) (m.read (4 * k + 2)) (m.read (4 * k + 3))

/-- `word[k] := v`: the bytes `4k` to `4k+3` in the machine's byte order (R51, R52). -/
def Memory.writeWord (o : ByteOrder) (m : Memory) (k : Nat) (v : Word) : Memory :=
  (((m.write (4 * k) (byteAt o 0 v)).write (4 * k + 1) (byteAt o 1 v)).write
    (4 * k + 2) (byteAt o 2 v)).write (4 * k + 3) (byteAt o 3 v)

/-- `MemRead(a, 1)` (R53): none where it raises `MemoryOutOfRange(a)`. -/
def State.memRead8 (s : State) (a : Word) : Option Byte :=
  if u32 a < memCapacity then some (s.mem.read (u32 a)) else none

/-- `MemRead(a, 4)` (R53): none where it raises `MemoryOutOfRange(a)`; the low two bits of `a` are
ignored (R55). -/
def State.memRead32 (s : State) (a : Word) : Option Word :=
  if u32 a < memCapacity then some (s.mem.readWord s.cfg.byteOrder (u32 a / 4)) else none

/-- `MemWrite(a, 1, b)` (R54): none where it raises `MemoryOutOfRange(a)`, with no byte changed. -/
def State.memWrite8 (s : State) (a : Word) (b : Byte) : Option State :=
  if u32 a < memCapacity then some { s with mem := s.mem.write (u32 a) b } else none

/-- `MemWrite(a, 4, v)` (R54): none where it raises `MemoryOutOfRange(a)`, with no byte changed; the
low two bits of `a` are ignored (R55). -/
def State.memWrite32 (s : State) (a : Word) (v : Word) : Option State :=
  if u32 a < memCapacity then
    some { s with mem := s.mem.writeWord s.cfg.byteOrder (u32 a / 4) v }
  else none

/-- `Fetch(pc)`: the instruction view at `pc` (R61). -/
def State.fetchWord (s : State) : Word := s.mem.readWord s.cfg.byteOrder (u32 s.pc / 4)

/-! ## Registers (10_state.md) -/

/-- The zero register (R21). -/
abbrev zeroReg : RegIx := 0
/-- The syscall result register (R21, D6). -/
abbrev resultReg : RegIx := 2
/-- The syscall argument register (R21, D6). -/
abbrev argReg : RegIx := 4
/-- GP (R21, D6). -/
abbrev gpReg : RegIx := 28
/-- SP (R21, D6). -/
abbrev spReg : RegIx := 29
/-- FP (R21, D6). -/
abbrev fpReg : RegIx := 30
/-- The link register (R21). -/
abbrev linkReg : RegIx := 31

/-- `REG[i]`: what the register file stores in slot `i` (R22). -/
def State.slot (s : State) (i : RegIx) : Word := s.regs.get i

/-- A read `x[i]`: register 0 reads 0 (R20, R22). -/
def State.x (s : State) (i : RegIx) : Word := if i = zeroReg then 0 else s.slot i

/-- A write `x[i] <- v`: a write to register 0 is discarded (R22). -/
def State.setX (s : State) (i : RegIx) (v : Word) : State :=
  if i = zeroReg then s else { s with regs := s.regs.set i v }

/-- `HI <- hi; LO <- lo`: the pair is written together (R25, R33). -/
def State.setHiLo (s : State) (hi lo : Word) : State := { s with hi := hi, lo := lo }

/-- `pc <- target` (R26). -/
def State.setPc (s : State) (target : Word) : State := { s with pc := target }

/-- The advance of the fetch unit, `pc <- P + 4` (R26). -/
def State.advance (s : State) : State := s.setPc (s.pc + 4)

/-- `P`, the address of the instruction being executed, seen from inside dispatch, where `pc` holds
`P + 4` (40_execution_cycle.md R114; log 15). -/
def State.instrAddr (s : State) : Word := s.pc - 4

/-! ## The host (60_exceptions.md R262) -/

/-- Send the host one interaction's data (log 9). -/
def State.send (s : State) (e : HostEvent) : State := { s with hostLog := s.hostLog ++ [e] }

/-- Count one value drawn from the host (log 7). -/
def State.drawn (s : State) : State := { s with hostDraws := s.hostDraws + 1 }

/-! ## Fault entry (60_exceptions.md R257) -/

/-- `raise F(info)` at the address `p`: the run state records the cause and the address, the host is
sent the diagnostic and the exit status, and nothing else changes (R257). -/
def State.raiseAt (s : State) (c : Cause) (p : Word) : State :=
  { s.send (.diagnostic c p s.cfg.exitStatusFault) with run := .faulted c p }

/-- A fault an instruction raises: `P` is the instruction's own address (R257). The entry is a NEXT
state (log 1). -/
def State.takeFault (s : State) (c : Cause) : Result := .next (s.raiseAt c s.instrAddr)

/-- The code of a fault cause (R251). -/
def Cause.code : Cause → Nat
  | .invariantViolation _ => 1
  | .unknownOpcode _ => 2
  | .unknownFunctionCode _ => 3
  | .unknownSyscallCode _ => 4
  | .divideByZero => 5
  | .divideOverflow => 6
  | .memoryOutOfRange _ => 7

end Sys2Proof.Machine
end

