-- ==== Sys2Proof/Machine/Trace.lean ====
section
/-! DEFINITION. What a trace renders (spec/60_exceptions.md R263 to R267), as data; the characters are
out of scope (log 10). The tracer only reads the state. -/

namespace Sys2Proof.Machine

/-- Cut a list into lines of `n` entries, the last flushed whatever its length (R264, R266). `cur`
holds the entries of the line being filled. -/
def linesFrom {α : Type} (n : Nat) : List α → List α → List (List α)
  | cur, [] => if cur.isEmpty then [] else [cur]
  | cur, a :: as =>
    if cur.length + 1 = n then (cur ++ [a]) :: linesFrom n [] as
    else linesFrom n (cur ++ [a]) as

/-- Lines of `n` entries (R264, R266). -/
def linesOf {α : Type} (n : Nat) (as : List α) : List (List α) := linesFrom n [] as

/-- The register dump: all 32 registers, six a line (R264). -/
def registerDump (s : State) : List (List (RegIx × Word)) :=
  linesOf 6 ((List.finRange 32).map fun i => (i, s.x i))

/-- The special dump's HI and LO: shown only if at least one is non-zero (R265). -/
def hiLoDump (s : State) : Option (Word × Word) :=
  if s.hi = 0 ∧ s.lo = 0 then none else some (s.hi, s.lo)

/-- The entries of a range dump: a zero word is printed, with the ellipsis marker, only when the word
before it in the range is not zero (R266). `inRun` says that the word before was zero. -/
def dumpEntriesFrom : Bool → List (Word × Word) → List DumpEntry
  | _, [] => []
  | inRun, (a, v) :: rest =>
    if v = 0 then
      if inRun then dumpEntriesFrom true rest
      else ⟨a, v, true⟩ :: dumpEntriesFrom true rest
    else ⟨a, v, false⟩ :: dumpEntriesFrom false rest

/-- The entries of a range dump (R266). -/
def dumpEntries (words : List (Word × Word)) : List DumpEntry := dumpEntriesFrom false words

/-- `n` words of memory from the word-aligned address `4k`, each with its address. -/
def wordsFrom (s : State) (k n : Nat) : List (Word × Word) :=
  (List.range n).map fun j =>
    (BitVec.ofNat 32 (4 * (k + j)), s.mem.readWord s.cfg.byteOrder (k + j))

/-- The dump of the data segment `[GP, SP)`, five entries a line (R266). -/
def dataDump (s : State) : List (List DumpEntry) :=
  linesOf 5 (dumpEntries (wordsFrom s (u32 (s.x gpReg) / 4)
    (u32 (s.x spReg) / 4 - u32 (s.x gpReg) / 4)))

/-- The dump of the stack segment `[SP, FP]`, five entries a line (R266). -/
def stackDump (s : State) : List (List DumpEntry) :=
  linesOf 5 (dumpEntries (wordsFrom s (u32 (s.x spReg) / 4)
    (u32 (s.x fpReg) / 4 + 1 - u32 (s.x spReg) / 4)))

/-- The full state, then the instruction about to execute (R263, R267). -/
def traceRecord (s : State) : TraceRecord where
  registers := registerDump s
  pc := s.pc
  hiLo := hiLoDump s
  data := dataDump s
  stack := stackDump s
  address := s.pc
  word := s.fetchWord

/-- `if trace == 1 then Host.trace(state)` (40_execution_cycle.md R111). -/
def State.traced (s : State) : State :=
  if s.trace then s.send (.trace (traceRecord s)) else s

end Sys2Proof.Machine
end

