-- ==== Sys2Proof/Machine/Cycle.lean ====
section
/-! DEFINITION. The step around dispatch: the invariant check (spec/60_exceptions.md R252), the trace,
the fetch, the advance of pc and the decode (40_execution_cycle.md R111). `step` (Machine/Step.lean) is
`stepWith exec`. -/

namespace Sys2Proof.Machine

/-- `CheckInvariants()` of R252: the first kind that fails, in the spec's order; GP, SP and FP are read
signed for the ordering, pc unsigned. -/
def State.checkInvariants (s : State) : Option InvariantKind :=
  if u32 s.pc % 4 ≠ 0 then some .pcAlign
  else if ¬ u32 s.pc < memCapacity then some .pcRange
  else if u32 (s.x gpReg) % 4 ≠ 0 then some .gpAlign
  else if u32 (s.x spReg) % 4 ≠ 0 then some .spAlign
  else if u32 (s.x fpReg) % 4 ≠ 0 then some .fpAlign
  else if ¬ (0 ≤ s32 (s.x gpReg) ∧ s32 (s.x gpReg) < s32 (s.x spReg) ∧
      s32 (s.x spReg) ≤ s32 (s.x fpReg) ∧ s32 (s.x fpReg) < (memCapacity : Int)) then
    some .stackOrder
  else if s.slot zeroReg ≠ 0 then some .zeroReg
  else none

/-- The state dispatch begins in: the trace sent if tracing is on, and pc advanced to `P + 4`
(R111). -/
def State.begun (s : State) : State := s.traced.advance

/-- Dispatch on what the decoder selected: the instruction's meaning, or one of the two default arms
(R112). -/
def dispatchWith (ex : Instr → State → Result) (s : State) : Decoded → Result
  | .instr i => ex i s
  | .unknownOpcode op => s.takeFault (.unknownOpcode op)
  | .unknownFunctionCode funct => s.takeFault (.unknownFunctionCode funct)

/-- The step of R110 and R111 over the meanings `ex`. -/
def stepWith (ex : Instr → State → Result) (s : State) : Result :=
  match s.run with
  | .exited _ => .fault .runExited
  | .faulted _ _ => .fault .runFaulted
  | .running =>
    match s.checkInvariants with
    | some kind => .next (s.raiseAt (.invariantViolation kind) s.pc)
    | none => dispatchWith ex s.begun (decode s.cfg.maps s.fetchWord)

/-- `s` with the word `v` stored where the next fetch reads it (log 6). -/
def State.placeFetchWord (s : State) (v : Word) : State :=
  if u32 s.pc < memCapacity then
    { s with mem := s.mem.writeWord s.cfg.byteOrder (u32 s.pc / 4) v }
  else s

end Sys2Proof.Machine
end

