-- ==== Sys2Proof/Machine/Operands.lean ====
section
/-! DEFINITION. Operand assembly (spec/30_encoding.md R84), branch and jump targets and the effective
address. -/

namespace Sys2Proof.Machine

/-- `sext_32(imm)` (R84). -/
def sextImm (imm : BitVec 16) : Word := imm.signExtend 32

/-- `zext_32(imm)` (R84). -/
def zextImm (imm : BitVec 16) : Word := imm.setWidth 32

/-- `zext_32(b)` of a byte (45_load_store.md R221). -/
def zextByte (b : Byte) : Word := b.setWidth 32

/-- The low byte of a register, `v[7:0]` (R164, R223). -/
def lowByte (v : Word) : Byte := v.extractLsb' 0 8

/-- `sext_32(imm) << 2`: a branch offset in words (R84). -/
def branchOffset (imm : BitVec 16) : Word := sextImm imm <<< 2

/-- The taken target of a branch, from the advanced pc, modulo 2^32 (44_branches.md R200). -/
def branchTarget (pc : Word) (imm : BitVec 16) : Word := pc + branchOffset imm

/-- The target of `j` and `jal`, from the advanced pc (46_jumps.md R240). -/
def jumpTarget (pc : Word) (addr : BitVec 26) : Word :=
  (pc &&& 0xF0000000) ||| (addr.setWidth 32 <<< 2)

/-- `EA = x[rs] + sext_32(imm)`, modulo 2^32 (45_load_store.md R220). -/
def State.effAddr (s : State) (rs : RegIx) (imm : BitVec 16) : Word := s.x rs + sextImm imm

end Sys2Proof.Machine
end

