-- ==== Sys2Proof/Machine/Flags.lean ====
section
/-! DEFINITION. The HW1 core has no flags (spec/10_state.md R31): what stands here instead is the
comparisons of registers that the conditional branches test directly (44_branches.md R201 to R206). -/

namespace Sys2Proof.Machine

/-- `a == b` on bit patterns (R201). -/
def condEq (a b : Word) : Bool := decide (a = b)
/-- `a != b` on bit patterns (R202). -/
def condNe (a b : Word) : Bool := decide (a ≠ b)
/-- `s32(a) >= 0` (R203). -/
def condGez (a : Word) : Bool := decide (0 ≤ s32 a)
/-- `s32(a) > 0` (R204). -/
def condGtz (a : Word) : Bool := decide (0 < s32 a)
/-- `s32(a) <= 0` (R205). -/
def condLez (a : Word) : Bool := decide (s32 a ≤ 0)
/-- `s32(a) < 0` (R206). -/
def condLtz (a : Word) : Bool := decide (s32 a < 0)

/-- A conditional branch: when the condition holds, `pc` takes the target (R200). -/
def State.branchIf (s : State) (cond : Bool) (imm : BitVec 16) : State :=
  if cond then s.setPc (branchTarget s.pc imm) else s

end Sys2Proof.Machine
end

