-- ==== Sys2Proof/Machine/Branches.lean ====
section
/-! DEFINITION. The conditional branches (spec/44_branches.md). -/

namespace Sys2Proof.Machine

/-- R201. -/
def execBeq (rs rt : RegIx) (imm : BitVec 16) (s : State) : Result :=
  .next (s.branchIf (condEq (s.x rs) (s.x rt)) imm)

/-- R202. -/
def execBne (rs rt : RegIx) (imm : BitVec 16) (s : State) : Result :=
  .next (s.branchIf (condNe (s.x rs) (s.x rt)) imm)

/-- R203. -/
def execBgez (rs : RegIx) (imm : BitVec 16) (s : State) : Result :=
  .next (s.branchIf (condGez (s.x rs)) imm)

/-- R204. -/
def execBgtz (rs : RegIx) (imm : BitVec 16) (s : State) : Result :=
  .next (s.branchIf (condGtz (s.x rs)) imm)

/-- R205. -/
def execBlez (rs : RegIx) (imm : BitVec 16) (s : State) : Result :=
  .next (s.branchIf (condLez (s.x rs)) imm)

/-- R206. -/
def execBltz (rs : RegIx) (imm : BitVec 16) (s : State) : Result :=
  .next (s.branchIf (condLtz (s.x rs)) imm)

end Sys2Proof.Machine
end

