-- ==== Sys2Proof/Machine/ImmediateAlu.lean ====
section
/-! DEFINITION. The immediate-form ALU instructions (spec/43_immediate_alu.md). -/

namespace Sys2Proof.Machine

/-- R190. -/
def execAddi (rt rs : RegIx) (imm : BitVec 16) (s : State) : Result :=
  .next (s.setX rt (s.x rs + sextImm imm))

/-- R191. -/
def execAndi (rt rs : RegIx) (imm : BitVec 16) (s : State) : Result :=
  .next (s.setX rt (s.x rs &&& zextImm imm))

/-- R192. -/
def execOri (rt rs : RegIx) (imm : BitVec 16) (s : State) : Result :=
  .next (s.setX rt (s.x rs ||| zextImm imm))

/-- R193. -/
def execXori (rt rs : RegIx) (imm : BitVec 16) (s : State) : Result :=
  .next (s.setX rt (s.x rs ^^^ zextImm imm))

end Sys2Proof.Machine
end

