-- ==== Sys2Proof/Machine/Jumps.lean ====
section
/-! DEFINITION. The jumps (spec/46_jumps.md). -/

namespace Sys2Proof.Machine

/-- R241. -/
def execJ (addr : BitVec 26) (s : State) : Result := .next (s.setPc (jumpTarget s.pc addr))

/-- R242: the link register takes the advanced pc. -/
def execJal (addr : BitVec 26) (s : State) : Result :=
  .next ((s.setX linkReg s.pc).setPc (jumpTarget s.pc addr))

end Sys2Proof.Machine
end

