-- ==== Sys2Proof/Machine/LoadStore.lean ====
section
/-! DEFINITION. Loads and stores (spec/45_load_store.md). The range check comes before any write. -/

namespace Sys2Proof.Machine

/-- The end of a load: the value into the register, or the range fault. -/
def State.loadInto (s : State) (rt : RegIx) (ea : Word) : Option Word → Result
  | none => s.takeFault (.memoryOutOfRange ea)
  | some v => .next (s.setX rt v)

/-- The end of a store: the state written, or the range fault with nothing written. -/
def State.storeOr (s : State) (ea : Word) : Option State → Result
  | none => s.takeFault (.memoryOutOfRange ea)
  | some t => .next t

/-- R221. -/
def execLbu (rt rs : RegIx) (imm : BitVec 16) (s : State) : Result :=
  s.loadInto rt (s.effAddr rs imm) ((s.memRead8 (s.effAddr rs imm)).map zextByte)

/-- R222. -/
def execLw (rt rs : RegIx) (imm : BitVec 16) (s : State) : Result :=
  s.loadInto rt (s.effAddr rs imm) (s.memRead32 (s.effAddr rs imm))

/-- R223. -/
def execSb (rt rs : RegIx) (imm : BitVec 16) (s : State) : Result :=
  s.storeOr (s.effAddr rs imm) (s.memWrite8 (s.effAddr rs imm) (lowByte (s.x rt)))

/-- R224. -/
def execSw (rt rs : RegIx) (imm : BitVec 16) (s : State) : Result :=
  s.storeOr (s.effAddr rs imm) (s.memWrite32 (s.effAddr rs imm) (s.x rt))

end Sys2Proof.Machine
end

