-- ==== Sys2Proof/Machine/Alu.lean ====
section
/-! DEFINITION. The operations of the ALU (spec/41_register_alu.md R130). -/

namespace Sys2Proof.Machine

/-- The 64-bit signed product (R133). -/
def signedProduct (a b : Word) : BitVec 64 := bits64 (s32 a * s32 b)

/-- HI of a multiply: `p[63:32]` (R133). -/
def productHi (a b : Word) : Word := (signedProduct a b).extractLsb' 32 32

/-- LO of a multiply: `p[31:0]` (R133). -/
def productLo (a b : Word) : Word := (signedProduct a b).extractLsb' 0 32

/-- `bits32(quot_t(a, b))`: the quotient rounded toward zero (R134, 00_scope.md R9). -/
def quotient (a b : Word) : Word := bits32 ((s32 a).tdiv (s32 b))

/-- `bits32(rem_t(a, b))`: the remainder, with the dividend's sign (R134, 00_scope.md R9). -/
def remainder (a b : Word) : Word := bits32 ((s32 a).tmod (s32 b))

/-- The one divide whose quotient does not fit: −2^31 / −1 (R134). -/
def divOverflows (a b : Word) : Bool := decide (s32 a = -2 ^ 31 ∧ s32 b = -1)

/-- The right shift of `srl`, with zeros or the sign shifted in (R142). -/
def shiftRight (fill : SrlFill) (a : Word) (n : ShiftCount) : Word :=
  match fill with
  | .zero => a >>> n.val
  | .sign => a.sshiftRight n.val

/-- The left shift of `sll` (R141). -/
def shiftLeft (a : Word) (n : ShiftCount) : Word := a <<< n.val

end Sys2Proof.Machine
end

