-- ==== Sys2Proof/Machine/RegisterAlu.lean ====
section
/-! DEFINITION. The register-form ALU instructions (spec/41_register_alu.md). Operands are read before
any write (R130). -/

namespace Sys2Proof.Machine

/-- R131. -/
def execAdd (rd rs rt : RegIx) (s : State) : Result := .next (s.setX rd (s.x rs + s.x rt))

/-- R132. -/
def execSub (rd rs rt : RegIx) (s : State) : Result := .next (s.setX rd (s.x rs - s.x rt))

/-- R133. -/
def execMul (rs rt : RegIx) (s : State) : Result :=
  .next (s.setHiLo (productHi (s.x rs) (s.x rt)) (productLo (s.x rs) (s.x rt)))

/-- R134: the two faults are tested, in this order, before any write. -/
def execDiv (rs rt : RegIx) (s : State) : Result :=
  if s32 (s.x rt) = 0 then s.takeFault .divideByZero
  else if divOverflows (s.x rs) (s.x rt) then
    match s.cfg.divOverflow with
    | .fault => s.takeFault .divideOverflow
    | .wrap => .next (s.setHiLo 0x00000000 0x80000000)
  else .next (s.setHiLo (remainder (s.x rs) (s.x rt)) (quotient (s.x rs) (s.x rt)))

/-- R135. -/
def execMfhi (rd : RegIx) (s : State) : Result := .next (s.setX rd s.hi)

/-- R136. -/
def execMflo (rd : RegIx) (s : State) : Result := .next (s.setX rd s.lo)

/-- R137. -/
def execAnd (rd rs rt : RegIx) (s : State) : Result := .next (s.setX rd (s.x rs &&& s.x rt))

/-- R138. -/
def execOr (rd rs rt : RegIx) (s : State) : Result := .next (s.setX rd (s.x rs ||| s.x rt))

/-- R139. -/
def execNor (rd rs rt : RegIx) (s : State) : Result := .next (s.setX rd (~~~(s.x rs ||| s.x rt)))

/-- R140. -/
def execXor (rd rs rt : RegIx) (s : State) : Result := .next (s.setX rd (s.x rs ^^^ s.x rt))

/-- R141. -/
def execSll (rd rt : RegIx) (shamt : ShiftCount) (s : State) : Result :=
  .next (s.setX rd (shiftLeft (s.x rt) shamt))

/-- R142. -/
def execSrl (rd rt : RegIx) (shamt : ShiftCount) (s : State) : Result :=
  .next (s.setX rd (shiftRight s.cfg.srlFill (s.x rt) shamt))

end Sys2Proof.Machine
end

