-- ==== Sys2Proof/Machine/RegisterControl.lean ====
section
/-! DEFINITION. `jr`, `syscall` and the six services (spec/42_register_control.md). A service's own
mnemonic and `syscall` with its code are two spellings of one encoding (30_encoding.md R93), so the
services are shared operations (`service…`) and each arm of exec has a definition of its own. -/

namespace Sys2Proof.Machine

/-- R160: the 32-bit pattern of the register becomes pc; a bad target faults at the next step. -/
def execJr (rs : RegIx) (s : State) : Result := .next (s.setPc (s.x rs))

/-- R162: `Host.exit(0); run <- Exited(0)`. -/
def serviceExit (s : State) : State := { s.send (.exit 0) with run := .exited 0 }

/-- The loop of R163 from the address `a`: the bytes before the NUL, or the address at which the range
check fails. The fuel bounds the reads; from an address in memory at most `memCapacity + 1` are made. -/
def stringFrom (s : State) : Nat → Word → Except Word (List Byte)
  | 0, a => .error a
  | fuel + 1, a =>
    match s.memRead8 a with
    | none => .error a
    | some b =>
      if b = 0 then .ok []
      else match stringFrom s fuel (a + 1) with
        | .error e => .error e
        | .ok bs => .ok (b :: bs)

/-- The NUL-terminated string at `a` (R163). -/
def stringAt (s : State) (a : Word) : Except Word (List Byte) := stringFrom s (memCapacity + 1) a

/-- The result register after `print_str`: unchanged, or a value the host draws (R163, D18). -/
def printStrResult (s : State) : State :=
  match s.cfg.printStrResult with
  | .unchanged => s
  | .draw => (s.setX resultReg (Config.freePrintStrResult s.hostDraws)).drawn

/-- R163: the range check completes before the host sees any byte. -/
def servicePrintStr (s : State) : Result :=
  match stringAt s (s.x argReg) with
  | .error a => s.takeFault (.memoryOutOfRange a)
  | .ok bs => .next (printStrResult (s.send (.printStr bs)))

/-- R164: the low byte is printed; the result register takes the value the host returns. -/
def servicePrintChar (s : State) : State :=
  ((s.send (.printChar (lowByte (s.x argReg)))).setX resultReg
    (Config.freePrintCharResult s.hostDraws)).drawn

/-- R165: the result register takes the value the host returns; when the host never answers the step
never completes (log 8). -/
def serviceReadChar (s : State) : Result :=
  if s.cfg.hostSilentAt = some s.hostDraws then .fault .readCharUnanswered
  else .next ((s.send .readChar).setX resultReg (Config.freeReadCharValue s.hostDraws)).drawn

/-- R166. -/
def serviceStartTracing (s : State) : State := { s with trace := true }

/-- R167. -/
def serviceStopTracing (s : State) : State := { s with trace := false }

/-- R162. -/
def execExit (s : State) : Result := .next (serviceExit s)

/-- R163. -/
def execPrintStr (s : State) : Result := servicePrintStr s

/-- R164. -/
def execPrintChar (s : State) : Result := .next (servicePrintChar s)

/-- R165. -/
def execReadChar (s : State) : Result := serviceReadChar s

/-- R166. -/
def execStartTracing (s : State) : Result := .next (serviceStartTracing s)

/-- R167. -/
def execStopTracing (s : State) : Result := .next (serviceStopTracing s)

/-- R161, R168: the service the code names, or the fault `UnknownSyscallCode(code)`. -/
def execSyscall (code : BitVec 20) (s : State) : Result :=
  if code = s.cfg.maps.sys.exit then .next (serviceExit s)
  else if code = s.cfg.maps.sys.printStr then servicePrintStr s
  else if code = s.cfg.maps.sys.printChar then .next (servicePrintChar s)
  else if code = s.cfg.maps.sys.readChar then serviceReadChar s
  else if code = s.cfg.maps.sys.startTracing then .next (serviceStartTracing s)
  else if code = s.cfg.maps.sys.stopTracing then .next (serviceStopTracing s)
  else s.takeFault (.unknownSyscallCode code)

end Sys2Proof.Machine
end

