-- ==== Sys2Proof/Machine/Dispatch.lean ====
section
/-! DEFINITION. One arm per instruction: the meaning it calls. -/

namespace Sys2Proof.Machine

def exec (i : Instr) (s : State) : Host.Outcome State Fault Refusal :=
  match i with
  | .add rd rs rt => Sys2Proof.Machine.execAdd rd rs rt s
  | .sub rd rs rt => Sys2Proof.Machine.execSub rd rs rt s
  | .mul rs rt => Sys2Proof.Machine.execMul rs rt s
  | .div rs rt => Sys2Proof.Machine.execDiv rs rt s
  | .mfhi rd => Sys2Proof.Machine.execMfhi rd s
  | .mflo rd => Sys2Proof.Machine.execMflo rd s
  | .and rd rs rt => Sys2Proof.Machine.execAnd rd rs rt s
  | .or rd rs rt => Sys2Proof.Machine.execOr rd rs rt s
  | .nor rd rs rt => Sys2Proof.Machine.execNor rd rs rt s
  | .xor rd rs rt => Sys2Proof.Machine.execXor rd rs rt s
  | .sll rd rt shamt => Sys2Proof.Machine.execSll rd rt shamt s
  | .srl rd rt shamt => Sys2Proof.Machine.execSrl rd rt shamt s
  | .jr rs => Sys2Proof.Machine.execJr rs s
  | .syscall code => Sys2Proof.Machine.execSyscall code s
  | .addi rt rs imm => Sys2Proof.Machine.execAddi rt rs imm s
  | .andi rt rs imm => Sys2Proof.Machine.execAndi rt rs imm s
  | .ori rt rs imm => Sys2Proof.Machine.execOri rt rs imm s
  | .xori rt rs imm => Sys2Proof.Machine.execXori rt rs imm s
  | .beq rs rt imm => Sys2Proof.Machine.execBeq rs rt imm s
  | .bne rs rt imm => Sys2Proof.Machine.execBne rs rt imm s
  | .bgez rs imm => Sys2Proof.Machine.execBgez rs imm s
  | .bgtz rs imm => Sys2Proof.Machine.execBgtz rs imm s
  | .blez rs imm => Sys2Proof.Machine.execBlez rs imm s
  | .bltz rs imm => Sys2Proof.Machine.execBltz rs imm s
  | .lbu rt rs imm => Sys2Proof.Machine.execLbu rt rs imm s
  | .lw rt rs imm => Sys2Proof.Machine.execLw rt rs imm s
  | .sb rt rs imm => Sys2Proof.Machine.execSb rt rs imm s
  | .sw rt rs imm => Sys2Proof.Machine.execSw rt rs imm s
  | .j addr => Sys2Proof.Machine.execJ addr s
  | .jal addr => Sys2Proof.Machine.execJal addr s
  | .exit => Sys2Proof.Machine.execExit s
  | .printStr => Sys2Proof.Machine.execPrintStr s
  | .printChar => Sys2Proof.Machine.execPrintChar s
  | .readChar => Sys2Proof.Machine.execReadChar s
  | .startTracing => Sys2Proof.Machine.execStartTracing s
  | .stopTracing => Sys2Proof.Machine.execStopTracing s

end Sys2Proof.Machine
end

