-- ==== Sys2Proof/Machine/Step.lean ====
section
/-! DEFINITION. One step of the machine (spec/40_execution_cycle.md R111), and the placing of a word
where the next step fetches. -/

namespace Sys2Proof.Machine

/-- The step. -/
def step (s : State) : Host.Outcome State Fault Refusal := stepWith exec s

/-- `s` with the instruction of a table row stored at `pc`, where `step` fetches next (log 6). -/
def State.withFetchWord (s : State) (nbits w : Nat) : State := s.placeFetchWord (tableWord nbits w)

end Sys2Proof.Machine
end

