-- ==== Sys2Proof/Machine/Loader.lean ====
section
/-! DEFINITION. Reset: the loader's `load` operation (spec/70_reset_and_hazards.md R290 to R294). It is
the only way the state is set from outside; State.reset is one load (log 6). -/

namespace Sys2Proof.Machine

/-- How many text words the loader copies: `H.text_length div 4` (R291). -/
def textWords (h : Header) : Nat := u32 h.textLength / 4

/-- How many data words the loader copies: `H.data_length div 4` (R291). -/
def dataWords (h : Header) : Nat := u32 h.dataLength / 4

/-- Admissibility of a reset: every copy lands inside memory and the streams hold what is copied
(R293). -/
def admissible (h : Header) (text data : List Word) : Bool :=
  decide (u32 h.textStart + 4 * textWords h ≤ memCapacity) &&
  decide (u32 h.dataStart + 4 * dataWords h ≤ memCapacity) &&
  decide (textWords h ≤ text.length) && decide (dataWords h ≤ data.length)

/-- Write the words, in order, from the word index `k` on (R292). -/
def Memory.copyWords (o : ByteOrder) : Memory → Nat → List Word → Memory
  | m, _, [] => m
  | m, k, v :: vs => Memory.copyWords o (m.writeWord o k v) (k + 1) vs

/-- Memory after a load: zero, then the text, then the data (R292). -/
def loadedMemory (o : ByteOrder) (h : Header) (text data : List Word) : Memory :=
  Memory.copyWords o
    (Memory.copyWords o [] (u32 h.textStart / 4) (text.take (textWords h)))
    (u32 h.dataStart / 4) (data.take (dataWords h))

/-- The state with every register zero and nothing in memory, before the header is applied (R292). -/
def blankState (c : Config) : State where
  regs := Vector.replicate 32 0
  hi := 0
  lo := 0
  pc := 0
  mem := []
  run := .running
  trace := c.traceInit
  cfg := c
  hostDraws := 0
  hostLog := []

/-- `load(H, T, D)` of R292; none where it is not admissible: no reset and no run (R293; log 18). -/
def load (c : Config) (h : Header) (text data : List Word) : Option State :=
  if admissible h text data then
    some (((({ blankState c with mem := loadedMemory c.byteOrder h text data }.setX gpReg
      h.dataStart).setX spReg h.stackBottom).setX fpReg h.stackBottom).setPc h.textStart)
  else none

/-- A well-formed header (R294). -/
def headerWellFormed (h : Header) : Bool :=
  decide (u32 h.textStart % 4 = 0) && decide (u32 h.dataStart % 4 = 0) &&
  decide (u32 h.stackBottom % 4 = 0) && decide (u32 h.textStart < memCapacity) &&
  decide (0 ≤ s32 h.dataStart) && decide (s32 h.dataStart < s32 h.stackBottom) &&
  decide (s32 h.stackBottom < (memCapacity : Int))

end Sys2Proof.Machine
end

