-- ==== Sys2Proof/Safety.lean ====
section
/-! DEFINITION. The terms claims are written in: what a step begins in, what an instruction leaves
unchanged, the tables of the spec that speak about all instructions, and the invariant of the machine. -/

namespace Sys2Proof.Machine

/-! ## What is left unchanged, and what is written -/

/-- Every register slot is as before, but those listed. -/
def KeepsRegsBut (s t : State) (written : List RegIx) : Prop :=
  ∀ i, i ∉ written → t.slot i = s.slot i

/-- HI and LO are as before. -/
def KeepsHiLo (s t : State) : Prop := t.hi = s.hi ∧ t.lo = s.lo

/-- Every byte of memory reads as before. -/
def KeepsMem (s t : State) : Prop := ∀ a, t.mem.read a = s.mem.read a

/-- The tracing flag and the parameters are as before. -/
def KeepsMode (s t : State) : Prop := t.trace = s.trace ∧ t.cfg = s.cfg

/-- The host has been sent nothing and has returned nothing. -/
def KeepsHost (s t : State) : Prop := t.hostLog = s.hostLog ∧ t.hostDraws = s.hostDraws

/-- `t` is `s` with `x[rd] <- v`: a write to register 0 changes nothing (10_state.md R22). -/
def WritesReg (s t : State) (rd : RegIx) (v : Word) : Prop :=
  (∀ i, t.slot i = if i = rd ∧ i ≠ zeroReg then v else s.slot i) ∧
  KeepsHiLo s t ∧ t.pc = s.pc ∧ KeepsMem s t ∧ t.run = s.run ∧ KeepsMode s t ∧ KeepsHost s t

/-- `t` is `s` with `HI <- hi; LO <- lo`. -/
def WritesHiLo (s t : State) (hi lo : Word) : Prop :=
  t.hi = hi ∧ t.lo = lo ∧
  KeepsRegsBut s t [] ∧ t.pc = s.pc ∧ KeepsMem s t ∧ t.run = s.run ∧ KeepsMode s t ∧ KeepsHost s t

/-- `t` is `s` with `pc <- p`. -/
def WritesPc (s t : State) (p : Word) : Prop :=
  t.pc = p ∧
  KeepsRegsBut s t [] ∧ KeepsHiLo s t ∧ KeepsMem s t ∧ t.run = s.run ∧ KeepsMode s t ∧
  KeepsHost s t

/-- `t` is `s` but for memory. -/
def WritesMemOnly (s t : State) : Prop :=
  KeepsRegsBut s t [] ∧ KeepsHiLo s t ∧ t.pc = s.pc ∧ t.run = s.run ∧ KeepsMode s t ∧ KeepsHost s t

/-- `t` is `s` with the fault `c` raised at the address `p`: only the run state changes, and the host
is sent the diagnostic and the exit status (60_exceptions.md R257). -/
def Faults (s t : State) (c : Cause) (p : Word) : Prop :=
  t.run = .faulted c p ∧
  t.hostLog = s.hostLog ++ [.diagnostic c p s.cfg.exitStatusFault] ∧
  KeepsRegsBut s t [] ∧ KeepsHiLo s t ∧ t.pc = s.pc ∧ KeepsMem s t ∧ KeepsMode s t ∧
  t.hostDraws = s.hostDraws

/-- `t` is `s` with the host sent the events `es` (and nothing else changed). -/
def Sends (s t : State) (es : List HostEvent) : Prop :=
  t.hostLog = s.hostLog ++ es ∧
  KeepsRegsBut s t [] ∧ KeepsHiLo s t ∧ t.pc = s.pc ∧ KeepsMem s t ∧ t.run = s.run ∧
  KeepsMode s t ∧ t.hostDraws = s.hostDraws

/-- `t` is `s` with the host sent `e` and its answer `v` in the result register (R164, R165). -/
def Asks (s t : State) (e : HostEvent) (v : Word) : Prop :=
  (∀ i, t.slot i = if i = resultReg then v else s.slot i) ∧
  t.hostLog = s.hostLog ++ [e] ∧ t.hostDraws = s.hostDraws + 1 ∧
  KeepsHiLo s t ∧ t.pc = s.pc ∧ KeepsMem s t ∧ t.run = s.run ∧ KeepsMode s t

/-- `t` is `s` with the run ended by `exit` and the host told so (R162). -/
def Exits (s t : State) : Prop :=
  t.run = .exited 0 ∧ t.hostLog = s.hostLog ++ [.exit 0] ∧
  KeepsRegsBut s t [] ∧ KeepsHiLo s t ∧ t.pc = s.pc ∧ KeepsMem s t ∧ KeepsMode s t ∧
  t.hostDraws = s.hostDraws

/-- `t` is `s` with the tracing flag `b` (R166, R167). -/
def SetsTrace (s t : State) (b : Bool) : Prop :=
  t.trace = b ∧
  KeepsRegsBut s t [] ∧ KeepsHiLo s t ∧ t.pc = s.pc ∧ KeepsMem s t ∧ t.run = s.run ∧
  t.cfg = s.cfg ∧ KeepsHost s t

/-- `t` is `s` with `x[31] <- link; pc <- target` (R242). -/
def Links (s t : State) (link target : Word) : Prop :=
  (∀ i, t.slot i = if i = linkReg then link else s.slot i) ∧ t.pc = target ∧
  KeepsHiLo s t ∧ KeepsMem s t ∧ t.run = s.run ∧ KeepsMode s t ∧ KeepsHost s t

/-! ## Encodings -/

/-- Every R-form word with the function code `funct`, whatever its other fields, decodes to the
instruction its fields give. -/
def DecodesR (m : Maps) (funct : BitVec 6) (mk : Word → Instr) : Prop :=
  ∀ w, opOf w = 0 → functOf w = funct → decode m w = .instr (mk w)

/-- Every word with the opcode `op`, whatever its other fields, decodes to the instruction its fields
give. -/
def DecodesOp (m : Maps) (op : BitVec 6) (mk : Word → Instr) : Prop :=
  ∀ w, opOf w = op → decode m w = .instr (mk w)

/-- Every `syscall` word with the code `code` decodes to `i`. -/
def DecodesService (m : Maps) (code : BitVec 20) (i : Instr) : Prop :=
  ∀ w, opOf w = 0 → functOf w = m.funct.syscall → codeOf w = code → decode m w = .instr i

/-! ## Steps -/

/-- The step of `s` reaches the fetch: the machine runs and the invariant check passes (R111). -/
def State.Ready (s : State) : Prop := s.run = .running ∧ s.checkInvariants = none

/-- Apply `f` to the next state of an outcome, if there is one. -/
def mapNext (f : State → State) : Result → Result
  | .next t => .next (f t)
  | .fault r => .fault r
  | .refused r => .refused r

/-- The state with the tracing flag and everything the host was sent left out: what R30 and R263 say
tracing does not touch. -/
def State.untraced (s : State) : State := { s with trace := false, hostLog := [] }

/-- `t` is what `s` is, but for the tracing flag and the trace records among what the host was sent. -/
def SameButTrace (s t : State) : Prop :=
  s.untraced = t.untraced ∧
  s.hostLog.filter (fun e => match e with | .trace _ => false | _ => true) =
    t.hostLog.filter (fun e => match e with | .trace _ => false | _ => true)

/-! ## The spec's tables over all instructions -/

/-- The registers `print_str` writes (10_state.md R23, `PRINT_STR_RESULT`). -/
def printStrWrites (c : Config) : List RegIx :=
  match c.printStrResult with
  | .unchanged => []
  | .draw => [resultReg]

/-- The "writes" column of the table of 10_state.md R23. -/
def writtenRegs (c : Config) : Instr → List RegIx
  | .add rd _ _ | .sub rd _ _ | .and rd _ _ | .or rd _ _ | .nor rd _ _ | .xor rd _ _ => [rd]
  | .mul _ _ | .div _ _ => []
  | .mfhi rd | .mflo rd => [rd]
  | .sll rd _ _ | .srl rd _ _ => [rd]
  | .jr _ => []
  | .exit | .startTracing | .stopTracing => []
  | .printStr => printStrWrites c
  | .printChar | .readChar => [resultReg]
  | .syscall code =>
    if code = c.maps.sys.printChar ∨ code = c.maps.sys.readChar then [resultReg]
    else if code = c.maps.sys.printStr then printStrWrites c
    else []
  | .addi rt _ _ | .andi rt _ _ | .ori rt _ _ | .xori rt _ _ => [rt]
  | .beq _ _ _ | .bne _ _ _ => []
  | .bgez _ _ | .bgtz _ _ | .blez _ _ | .bltz _ _ => []
  | .lbu rt _ _ | .lw rt _ _ => [rt]
  | .sb _ _ _ | .sw _ _ _ => []
  | .j _ => []
  | .jal _ => [linkReg]

/-- The "reads" column of the table of 10_state.md R23. -/
def readRegs (c : Config) : Instr → List RegIx
  | .add _ rs rt | .sub _ rs rt | .and _ rs rt | .or _ rs rt | .nor _ rs rt | .xor _ rs rt => [rs, rt]
  | .mul rs rt | .div rs rt => [rs, rt]
  | .mfhi _ | .mflo _ => []
  | .sll _ rt _ | .srl _ rt _ => [rt]
  | .jr rs => [rs]
  | .exit | .startTracing | .stopTracing => []
  | .printStr | .printChar => [argReg]
  | .readChar => []
  | .syscall code =>
    if code = c.maps.sys.printStr ∨ code = c.maps.sys.printChar then [argReg] else []
  | .addi _ rs _ | .andi _ rs _ | .ori _ rs _ | .xori _ rs _ => [rs]
  | .beq rs rt _ | .bne rs rt _ => [rs, rt]
  | .bgez rs _ | .bgtz rs _ | .blez rs _ | .bltz rs _ => [rs]
  | .lbu _ rs _ | .lw _ rs _ => [rs]
  | .sb rt rs _ | .sw rt rs _ => [rs, rt]
  | .j _ => []
  | .jal _ => []

/-- Two states that are one but for their registers outside a list. -/
def AgreeOn (reads : List RegIx) (s t : State) : Prop :=
  { s with regs := t.regs } = t ∧ ∀ i ∈ reads, s.x i = t.x i

/-- The table of 60_exceptions.md R255: may the instruction raise the cause in its own step? -/
def mayRaise (c : Config) (i : Instr) (cause : Cause) : Prop :=
  match cause with
  | .divideByZero => ∃ rs rt, i = .div rs rt
  | .divideOverflow => ∃ rs rt, i = .div rs rt
  | .memoryOutOfRange _ =>
    (∃ rt rs imm, i = .lbu rt rs imm ∨ i = .lw rt rs imm ∨ i = .sb rt rs imm ∨ i = .sw rt rs imm) ∨
    i = .printStr ∨ i = .syscall c.maps.sys.printStr
  | .unknownSyscallCode code => i = .syscall code ∧ code ∉ c.maps.sys.values
  | .unknownOpcode _ => False
  | .unknownFunctionCode _ => False
  | .invariantViolation _ => False

/-- Does the instruction write the tracing flag (10_state.md R30)? -/
def setsTrace (c : Config) : Instr → Prop
  | .startTracing | .stopTracing => True
  | .syscall code => code = c.maps.sys.startTracing ∨ code = c.maps.sys.stopTracing
  | _ => False

/-- Does the instruction store to memory? -/
def isStore : Instr → Prop
  | .sb _ _ _ | .sw _ _ _ => True
  | _ => False

/-- Does the instruction read or write HI or LO (10_state.md R25)? -/
def usesHiLo : Instr → Prop
  | .mul _ _ | .div _ _ | .mfhi _ | .mflo _ => True
  | _ => False

/-! ## The invariant of the machine -/

/-- What the host was sent last agrees with how the run ended (R162, R257). -/
def endOfRunSent (s : State) : Prop :=
  match s.run with
  | .running => True
  | .exited status => status = 0 ∧ s.hostLog.getLast? = some (.exit 0)
  | .faulted c p => s.hostLog.getLast? = some (.diagnostic c p s.cfg.exitStatusFault)

/-- The invariant every step keeps: memory is in canonical form and holds only bytes that exist, slot 0
of the register file is zero, the parameters are ones a machine may have, and an ended run has told the
host so. -/
structure State.Inv (s : State) : Prop where
  memWf : s.mem.wf = true
  memInRange : s.mem.inRange = true
  zeroSlot : s.slot zeroReg = 0
  cfgWf : s.cfg.WellFormed
  ended : endOfRunSent s

end Sys2Proof.Machine
end

