-- ==== Sys2Proof/Certificates/Slice0/Obligations.lean ====
section
/-! DEFINITION. The statements for the provers, each citing the rule of spec/ it formalises. A clause
that rests on the model's own choice says so and names the log entry. -/

open Sys2Proof Sys2Proof.Machine

/-! ## The step -/

/-- R111, the run loop: a failing invariant ends the run before the fetch; otherwise the trace is sent
when tracing is on, the word at pc is fetched, pc advances by 4, the word is decoded and dispatched.
`P` is `s.pc`; `s.begun` is the state dispatch begins in. -/
def Obligations.StepRunsTheFetchedInstruction : Prop :=
  ∀ s : State, s.run = .running →
    (∀ kind, s.checkInvariants = some kind →
      ∃ t, step s = .next t ∧ Faults s t (.invariantViolation kind) s.pc) ∧
    (s.checkInvariants = none →
      (s.begun.pc = s.pc + 4 ∧
        s.begun.hostLog = s.hostLog ++ (if s.trace then [.trace (traceRecord s)] else []) ∧
        KeepsRegsBut s s.begun [] ∧ KeepsHiLo s s.begun ∧ KeepsMem s s.begun ∧
        s.begun.run = s.run ∧ KeepsMode s s.begun ∧ s.begun.hostDraws = s.hostDraws) ∧
      s.fetchWord = wordOfBytes s.cfg.byteOrder (s.mem.read (u32 s.pc)) (s.mem.read (u32 s.pc + 1))
        (s.mem.read (u32 s.pc + 2)) (s.mem.read (u32 s.pc + 3)) ∧
      (∀ i, decode s.cfg.maps s.fetchWord = .instr i → step s = exec i s.begun) ∧
      (∀ op, decode s.cfg.maps s.fetchWord = .unknownOpcode op →
        ∃ t, step s = .next t ∧ Faults s.begun t (.unknownOpcode op) s.pc) ∧
      (∀ funct, decode s.cfg.maps s.fetchWord = .unknownFunctionCode funct →
        ∃ t, step s = .next t ∧ Faults s.begun t (.unknownFunctionCode funct) s.pc))

/-- R110: a step is taken only from `Running`, and it completes, exits or faults. That "no step" is an
outcome `fault` of the host's interface is the model's form (log 1). -/
def Obligations.NoStepAfterTheRunEnds : Prop :=
  ∀ s : State,
    (∀ status, s.run = .exited status → step s = .fault .runExited) ∧
    (∀ c p, s.run = .faulted c p → step s = .fault .runFaulted) ∧
    (∀ t, step s = .next t →
      s.run = .running ∧
      (t.run = .running ∨ t.run = .exited 0 ∨ ∃ c p, t.run = .faulted c p))

/-- From R110, R262 and R298: a running machine always answers a next state, but for a `read_char` the
host never answers (log 8); nothing is refused. -/
def Obligations.RunningMachineAlwaysSteps : Prop :=
  ∀ s : State, s.run = .running →
    (∃ t, step s = .next t) ∨
    (step s = .fault .readCharUnanswered ∧ s.cfg.hostSilentAt = some s.hostDraws ∧
      (decode s.cfg.maps s.fetchWord = .instr .readChar ∨
        decode s.cfg.maps s.fetchWord = .instr (.syscall s.cfg.maps.sys.readChar)))

/-- From R27, R252, R253: a pc that is misaligned or outside memory is no fault of the step that wrote
it, and is one of the next step, before any fetch. -/
def Obligations.BadPcFaultsAtTheNextStep : Prop :=
  ∀ s : State, s.run = .running →
    (u32 s.pc % 4 ≠ 0 →
      ∃ t, step s = .next t ∧ Faults s t (.invariantViolation .pcAlign) s.pc) ∧
    (u32 s.pc % 4 = 0 → memCapacity ≤ u32 s.pc →
      ∃ t, step s = .next t ∧ Faults s t (.invariantViolation .pcRange) s.pc)

/-- From R115: the advance never wraps, and after the last word an instruction that leaves pc at the advance
makes the next step fault with `PC_RANGE`.
An inference the spec marks as derived. -/
def Obligations.SequentialAdvanceNeverWraps : Prop :=
  ∀ s : State, s.Ready →
    u32 s.pc ≤ 65528 ∧ u32 s.begun.pc = u32 s.pc + 4 ∧ u32 s.begun.pc ≤ memCapacity ∧
    (u32 s.pc = 65528 → ∀ t, step s = .next t → t.run = .running → t.pc = s.begun.pc →
      ∃ t', step t = .next t' ∧ Faults t t' (.invariantViolation .pcRange) 65532)

/-! ## The decoder and the encoder -/

/-- R82: the shape is selected by the opcode field alone, and every field is a fixed slice.
The places of the fields are the spec's decision D1 (log 3). -/
def Obligations.DecoderSelectsShapeByOpcode : Prop :=
  ∀ (m : Maps) (w : Word),
    (w.extractLsb' 26 6 = 0 →
      shapeOf m w = .r (w.extractLsb' 21 5).toFin (w.extractLsb' 16 5).toFin
        (w.extractLsb' 11 5).toFin (w.extractLsb' 6 5).toFin (w.extractLsb' 0 6)
        (w.extractLsb' 6 20)) ∧
    (w.extractLsb' 26 6 ≠ 0 → (w.extractLsb' 26 6 = m.op.j ∨ w.extractLsb' 26 6 = m.op.jal) →
      shapeOf m w = .j (w.extractLsb' 26 6) (w.extractLsb' 0 26)) ∧
    (w.extractLsb' 26 6 ≠ 0 → w.extractLsb' 26 6 ≠ m.op.j → w.extractLsb' 26 6 ≠ m.op.jal →
      shapeOf m w = .i (w.extractLsb' 26 6) (w.extractLsb' 21 5).toFin
        (w.extractLsb' 16 5).toFin (w.extractLsb' 0 16))

/-- R89: an encoding becomes illegal only at dispatch, and each kind of illegal word faults under its
own name; every word with known codes has an instruction, and J-form words are never illegal. -/
def Obligations.UnknownCodesFaultAtDispatch : Prop :=
  ∀ s : State, s.Ready → s.cfg.maps.WellFormed →
    (opOf s.fetchWord = 0 → functOf s.fetchWord ∉ s.cfg.maps.funct.values →
      ∃ t, step s = .next t ∧
        Faults s.begun t (.unknownFunctionCode (functOf s.fetchWord)) s.pc) ∧
    (opOf s.fetchWord ∉ s.cfg.maps.op.values →
      ∃ t, step s = .next t ∧ Faults s.begun t (.unknownOpcode (opOf s.fetchWord)) s.pc) ∧
    (opOf s.fetchWord = 0 → functOf s.fetchWord = s.cfg.maps.funct.syscall →
      codeOf s.fetchWord ∉ s.cfg.maps.sys.values →
      ∃ t, step s = .next t ∧
        Faults s.begun t (.unknownSyscallCode (codeOf s.fetchWord)) s.pc) ∧
    (opOf s.fetchWord = 0 → functOf s.fetchWord ∈ s.cfg.maps.funct.values →
      ∃ i, decode s.cfg.maps s.fetchWord = .instr i) ∧
    (opOf s.fetchWord ≠ 0 → opOf s.fetchWord ∈ s.cfg.maps.op.values →
      ∃ i, decode s.cfg.maps s.fetchWord = .instr i) ∧
    (opOf s.fetchWord = s.cfg.maps.op.j ∨ opOf s.fetchWord = s.cfg.maps.op.jal →
      ∃ addr, decode s.cfg.maps s.fetchWord = .instr (.j addr) ∨
        decode s.cfg.maps s.fetchWord = .instr (.jal addr))

/-- From R81, R82, R88, R91: under any maps R88 allows, decoding the encoding of a well-formed
instruction gives it back, with every operand at every value. -/
def Obligations.EncodedInstructionDecodesToItself : Prop :=
  ∀ (m : Maps) (i : Instr), m.WellFormed → i.WellFormed m = true → decode m (encode m i) = .instr i

/-- From R81, R90, R91: a word that decodes to an instruction is that instruction's encoding once its
ignored fields are 0, and the instruction is well formed. -/
def Obligations.DecodedWordIsItsEncoding : Prop :=
  ∀ (m : Maps) (w : Word) (i : Instr), m.WellFormed → decode m w = .instr i →
    encode m i = w &&& usedBits i ∧ i.WellFormed m = true

/-- R90: any value in a field the instruction ignores encodes the same instruction. The ignored fields
of each instruction are written out, and the canonical encoding has 0 in them.
That such a field is not checked is the spec's decision D12. -/
def Obligations.IgnoredFieldsDoNotMatter : Prop :=
  (∀ (m : Maps) (w w' : Word) (i : Instr), decode m w = .instr i →
    w &&& usedBits i = w' &&& usedBits i → decode m w' = .instr i) ∧
  (∀ (m : Maps) (i : Instr), encode m i &&& ~~~ usedBits i = 0) ∧
  (∀ rd rs rt : RegIx, ∀ n : ShiftCount, ∀ imm : BitVec 16,
    (∀ i ∈ [Instr.add rd rs rt, .sub rd rs rt, .and rd rs rt, .or rd rs rt, .nor rd rs rt,
      .xor rd rs rt], ~~~ usedBits i = 0x000007C0) ∧
    (∀ i ∈ [Instr.mul rs rt, .div rs rt], ~~~ usedBits i = 0x0000FFC0) ∧
    (∀ i ∈ [Instr.mfhi rd, .mflo rd], ~~~ usedBits i = 0x03FF07C0) ∧
    (∀ i ∈ [Instr.sll rd rt n, .srl rd rt n], ~~~ usedBits i = 0x03E00000) ∧
    ~~~ usedBits (.jr rs) = 0x001FFFC0 ∧
    (∀ i ∈ [Instr.bgez rs imm, .bgtz rs imm, .blez rs imm, .bltz rs imm],
      ~~~ usedBits i = 0x001F0000))

/-- From R94, the spec's worked encodings under the default maps, both ways.
An inference the spec marks as derived, from its default maps (log 3). -/
def Obligations.WorkedEncodingsAreRight : Prop :=
  (encode .default (.add 8 0 0) = 0x00004021 ∧ decode .default 0x00004021 = .instr (.add 8 0 0)) ∧
  (encode .default (.jr 8) = 0x01000008 ∧ decode .default 0x01000008 = .instr (.jr 8)) ∧
  (encode .default .exit = 0x0000028C ∧ decode .default 0x0000028C = .instr .exit) ∧
  (encode .default (.beq 0 0 (-1)) = 0x1000FFFF ∧
    decode .default 0x1000FFFF = .instr (.beq 0 0 (-1))) ∧
  (encode .default (.j 0) = 0x08000000 ∧ decode .default 0x08000000 = .instr (.j 0)) ∧
  (encode .default (.lw 9 28 4) = 0x8F890004 ∧ decode .default 0x8F890004 = .instr (.lw 9 28 4))

/-! ## The register-form ALU -/

/-- R131, R132: add and sub wrap modulo 2^32, write x[rd] alone, and never fault. -/
def Obligations.AddAndSubWrap : Prop :=
  (FunctMap.default.add = 33 ∧ FunctMap.default.sub = 35) ∧
  (∀ m : Maps, m.WellFormed →
    DecodesR m m.funct.add (fun w => .add (rdOf w) (rsOf w) (rtOf w)) ∧
    DecodesR m m.funct.sub (fun w => .sub (rdOf w) (rsOf w) (rtOf w))) ∧
  ∀ (s : State) (rd rs rt : RegIx),
    (∃ t, exec (.add rd rs rt) s = .next t ∧
      WritesReg s t rd (BitVec.ofNat 32 ((u32 (s.x rs) + u32 (s.x rt)) % 2 ^ 32))) ∧
    (∃ t, exec (.sub rd rs rt) s = .next t ∧
      WritesReg s t rd (bits32 (s32 (s.x rs) - s32 (s.x rt))))

/-- R133: HI:LO is the exact 64-bit signed product. -/
def Obligations.MulWritesTheExactProduct : Prop :=
  FunctMap.default.mul = 25 ∧
  (∀ m : Maps, m.WellFormed → DecodesR m m.funct.mul (fun w => .mul (rsOf w) (rtOf w))) ∧
  ∀ (s : State) (rs rt : RegIx), ∃ t hi lo, exec (.mul rs rt) s = .next t ∧
    WritesHiLo s t hi lo ∧ (hi ++ lo : BitVec 64).toInt = s32 (s.x rs) * s32 (s.x rt)

/-- R134: a zero divisor faults, −2^31 / −1 faults or wraps as the policy says, and every other divide
puts the truncated quotient in LO and the remainder in HI.
The overflow case is the spec's decision D9. -/
def Obligations.DivWritesQuotientAndRemainder : Prop :=
  FunctMap.default.div = 27 ∧
  (∀ m : Maps, m.WellFormed → DecodesR m m.funct.div (fun w => .div (rsOf w) (rtOf w))) ∧
  ∀ (s : State) (rs rt : RegIx),
    (s.x rt = 0 →
      ∃ t, exec (.div rs rt) s = .next t ∧ Faults s t .divideByZero (s.pc - 4)) ∧
    (s.x rs = 0x80000000 → s.x rt = 0xFFFFFFFF → s.cfg.divOverflow = .fault →
      ∃ t, exec (.div rs rt) s = .next t ∧ Faults s t .divideOverflow (s.pc - 4)) ∧
    (s.x rs = 0x80000000 → s.x rt = 0xFFFFFFFF → s.cfg.divOverflow = .wrap →
      ∃ t, exec (.div rs rt) s = .next t ∧ WritesHiLo s t 0 0x80000000) ∧
    (s.x rt ≠ 0 → ¬ (s.x rs = 0x80000000 ∧ s.x rt = 0xFFFFFFFF) →
      ∃ t hi lo, exec (.div rs rt) s = .next t ∧ WritesHiLo s t hi lo ∧
        s32 lo = (s32 (s.x rs)).tdiv (s32 (s.x rt)) ∧
        s32 hi = (s32 (s.x rs)).tmod (s32 (s.x rt)))

/-- From R9, R134, R143: after a divide that completes exactly, LO * b + HI = a, |HI| < |b|, and HI is
zero or has the sign of the dividend. -/
def Obligations.DivideIdentityHolds : Prop :=
  ∀ (s t : State) (rs rt : RegIx), s.x rt ≠ 0 → ¬ (s.x rs = 0x80000000 ∧ s.x rt = 0xFFFFFFFF) →
    exec (.div rs rt) s = .next t →
    s32 t.lo * s32 (s.x rt) + s32 t.hi = s32 (s.x rs) ∧
    (s32 t.hi).natAbs < (s32 (s.x rt)).natAbs ∧
    (s32 t.hi = 0 ∨ (s32 t.hi < 0 ↔ s32 (s.x rs) < 0))

/-- R135, R136: mfhi and mflo copy HI and LO into x[rd]. -/
def Obligations.MoveFromHiLoCopies : Prop :=
  (FunctMap.default.mfhi = 16 ∧ FunctMap.default.mflo = 18) ∧
  (∀ m : Maps, m.WellFormed →
    DecodesR m m.funct.mfhi (fun w => .mfhi (rdOf w)) ∧
    DecodesR m m.funct.mflo (fun w => .mflo (rdOf w))) ∧
  ∀ (s : State) (rd : RegIx),
    (∃ t, exec (.mfhi rd) s = .next t ∧ WritesReg s t rd s.hi) ∧
    (∃ t, exec (.mflo rd) s = .next t ∧ WritesReg s t rd s.lo)

/-- R137 to R140: and, or, nor, xor, bit by bit. -/
def Obligations.BitwiseRegisterFormIsBitByBit : Prop :=
  (FunctMap.default.and = 36 ∧ FunctMap.default.or = 37 ∧ FunctMap.default.nor = 39 ∧
    FunctMap.default.xor = 38) ∧
  (∀ m : Maps, m.WellFormed →
    DecodesR m m.funct.and (fun w => .and (rdOf w) (rsOf w) (rtOf w)) ∧
    DecodesR m m.funct.or (fun w => .or (rdOf w) (rsOf w) (rtOf w)) ∧
    DecodesR m m.funct.nor (fun w => .nor (rdOf w) (rsOf w) (rtOf w)) ∧
    DecodesR m m.funct.xor (fun w => .xor (rdOf w) (rsOf w) (rtOf w))) ∧
  ∀ (s : State) (rd rs rt : RegIx),
    (∃ t v, exec (.and rd rs rt) s = .next t ∧ WritesReg s t rd v ∧
      ∀ k < 32, v.getLsbD k = ((s.x rs).getLsbD k && (s.x rt).getLsbD k)) ∧
    (∃ t v, exec (.or rd rs rt) s = .next t ∧ WritesReg s t rd v ∧
      ∀ k < 32, v.getLsbD k = ((s.x rs).getLsbD k || (s.x rt).getLsbD k)) ∧
    (∃ t v, exec (.nor rd rs rt) s = .next t ∧ WritesReg s t rd v ∧
      ∀ k < 32, v.getLsbD k = !((s.x rs).getLsbD k || (s.x rt).getLsbD k)) ∧
    (∃ t v, exec (.xor rd rs rt) s = .next t ∧ WritesReg s t rd v ∧
      ∀ k < 32, v.getLsbD k = ((s.x rs).getLsbD k ^^ (s.x rt).getLsbD k))

/-- R141: sll multiplies by 2^shamt modulo 2^32. -/
def Obligations.ShiftLeftFillsWithZeros : Prop :=
  FunctMap.default.sll = 0 ∧
  (∀ m : Maps, m.WellFormed →
    DecodesR m m.funct.sll (fun w => .sll (rdOf w) (rtOf w) (shamtOf w))) ∧
  ∀ (s : State) (rd rt : RegIx) (n : ShiftCount), ∃ t v, exec (.sll rd rt n) s = .next t ∧
    WritesReg s t rd v ∧ u32 v = u32 (s.x rt) * 2 ^ n.val % 2 ^ 32

/-- R142: srl divides by 2^shamt, the unsigned value under zero fill, the signed one (toward −∞) under
sign fill.
The fill is the spec's decision D10. -/
def Obligations.ShiftRightFillsAsConfigured : Prop :=
  FunctMap.default.srl = 3 ∧
  (∀ m : Maps, m.WellFormed →
    DecodesR m m.funct.srl (fun w => .srl (rdOf w) (rtOf w) (shamtOf w))) ∧
  ∀ (s : State) (rd rt : RegIx) (n : ShiftCount), ∃ t v, exec (.srl rd rt n) s = .next t ∧
    WritesReg s t rd v ∧
    (s.cfg.srlFill = .zero → u32 v = u32 (s.x rt) / 2 ^ n.val) ∧
    (s.cfg.srlFill = .sign → s32 v = s32 (s.x rt) / 2 ^ n.val)

/-! ## The immediate-form ALU -/

/-- R190: addi adds the sign-extended immediate modulo 2^32.
That it wraps is the spec's decision D11. -/
def Obligations.AddImmediateSignExtends : Prop :=
  OpcodeMap.default.addi = 9 ∧
  (∀ m : Maps, m.WellFormed →
    DecodesOp m m.op.addi (fun w => .addi (rtOf w) (rsOf w) (immOf w))) ∧
  ∀ (s : State) (rt rs : RegIx) (imm : BitVec 16), ∃ t, exec (.addi rt rs imm) s = .next t ∧
    WritesReg s t rt (bits32 (s32 (s.x rs) + imm.toInt))

/-- R191 to R193: andi, ori, xori with the immediate zero-extended, bit by bit: a bit of the immediate
above 15 is 0. -/
def Obligations.LogicImmediateZeroExtends : Prop :=
  (OpcodeMap.default.andi = 12 ∧ OpcodeMap.default.ori = 13 ∧ OpcodeMap.default.xori = 14) ∧
  (∀ m : Maps, m.WellFormed →
    DecodesOp m m.op.andi (fun w => .andi (rtOf w) (rsOf w) (immOf w)) ∧
    DecodesOp m m.op.ori (fun w => .ori (rtOf w) (rsOf w) (immOf w)) ∧
    DecodesOp m m.op.xori (fun w => .xori (rtOf w) (rsOf w) (immOf w))) ∧
  ∀ (s : State) (rt rs : RegIx) (imm : BitVec 16),
    (∃ t v, exec (.andi rt rs imm) s = .next t ∧ WritesReg s t rt v ∧
      ∀ k < 32, v.getLsbD k = ((s.x rs).getLsbD k && (decide (k < 16) && imm.getLsbD k))) ∧
    (∃ t v, exec (.ori rt rs imm) s = .next t ∧ WritesReg s t rt v ∧
      ∀ k < 32, v.getLsbD k = ((s.x rs).getLsbD k || (decide (k < 16) && imm.getLsbD k))) ∧
    (∃ t v, exec (.xori rt rs imm) s = .next t ∧ WritesReg s t rt v ∧
      ∀ k < 32, v.getLsbD k = ((s.x rs).getLsbD k ^^ (decide (k < 16) && imm.getLsbD k)))

/-! ## Branches and jumps -/

/-- R200, R201, R202: beq and bne at `P` (pc = P + 4 in dispatch) go to P + 4 + 4·imm modulo 2^32 when
the condition holds, else stay at P + 4. -/
def Obligations.BranchOnEqualityTakesItsTarget : Prop :=
  (OpcodeMap.default.beq = 4 ∧ OpcodeMap.default.bne = 5) ∧
  (∀ m : Maps, m.WellFormed →
    DecodesOp m m.op.beq (fun w => .beq (rsOf w) (rtOf w) (immOf w)) ∧
    DecodesOp m m.op.bne (fun w => .bne (rsOf w) (rtOf w) (immOf w))) ∧
  ∀ (s : State) (P : Word) (rs rt : RegIx) (imm : BitVec 16), s.pc = P + 4 →
    (∃ t, exec (.beq rs rt imm) s = .next t ∧
      WritesPc s t (if s.x rs = s.x rt then bits32 (u32 P + 4 + 4 * imm.toInt) else P + 4)) ∧
    (∃ t, exec (.bne rs rt imm) s = .next t ∧
      WritesPc s t (if s.x rs ≠ s.x rt then bits32 (u32 P + 4 + 4 * imm.toInt) else P + 4))

/-- R200, R203 to R206: bgez, bgtz, blez, bltz on the signed value of x[rs]. -/
def Obligations.BranchOnSignTakesItsTarget : Prop :=
  (OpcodeMap.default.bgez = 1 ∧ OpcodeMap.default.bgtz = 7 ∧ OpcodeMap.default.blez = 6 ∧
    OpcodeMap.default.bltz = 8) ∧
  (∀ m : Maps, m.WellFormed →
    DecodesOp m m.op.bgez (fun w => .bgez (rsOf w) (immOf w)) ∧
    DecodesOp m m.op.bgtz (fun w => .bgtz (rsOf w) (immOf w)) ∧
    DecodesOp m m.op.blez (fun w => .blez (rsOf w) (immOf w)) ∧
    DecodesOp m m.op.bltz (fun w => .bltz (rsOf w) (immOf w))) ∧
  ∀ (s : State) (P : Word) (rs : RegIx) (imm : BitVec 16), s.pc = P + 4 →
    (∃ t, exec (.bgez rs imm) s = .next t ∧
      WritesPc s t (if 0 ≤ s32 (s.x rs) then bits32 (u32 P + 4 + 4 * imm.toInt) else P + 4)) ∧
    (∃ t, exec (.bgtz rs imm) s = .next t ∧
      WritesPc s t (if 0 < s32 (s.x rs) then bits32 (u32 P + 4 + 4 * imm.toInt) else P + 4)) ∧
    (∃ t, exec (.blez rs imm) s = .next t ∧
      WritesPc s t (if s32 (s.x rs) ≤ 0 then bits32 (u32 P + 4 + 4 * imm.toInt) else P + 4)) ∧
    (∃ t, exec (.bltz rs imm) s = .next t ∧
      WritesPc s t (if s32 (s.x rs) < 0 then bits32 (u32 P + 4 + 4 * imm.toInt) else P + 4))

/-- R160: jr puts the register's pattern in pc and faults in no case in its own step; a bad target ends
the run at the next step.
That the pattern is read unsigned is the spec's decision D27. -/
def Obligations.JumpRegisterTakesItsTarget : Prop :=
  FunctMap.default.jr = 8 ∧
  (∀ m : Maps, m.WellFormed → DecodesR m m.funct.jr (fun w => .jr (rsOf w))) ∧
  ∀ (s : State) (rs : RegIx), ∃ t, exec (.jr rs) s = .next t ∧ WritesPc s t (s.x rs) ∧
    (s.run = .running → (u32 (s.x rs) % 4 ≠ 0 ∨ memCapacity ≤ u32 (s.x rs)) →
      ∃ t' kind, step t = .next t' ∧ (kind = .pcAlign ∨ kind = .pcRange) ∧
        Faults t t' (.invariantViolation kind) (s.x rs))

/-- From R240, R241, R242: j and jal go to the advanced pc's bits 31:28 with 4·addr below them; jal
links P + 4; from an instruction in memory the target is exactly 4·addr.
The target is the spec's decision D25. The last clause is an inference R240 marks as derived, from
R115. -/
def Obligations.JumpsTakeTheirTarget : Prop :=
  (OpcodeMap.default.j = 2 ∧ OpcodeMap.default.jal = 3) ∧
  (∀ m : Maps, m.WellFormed →
    DecodesOp m m.op.j (fun w => .j (addrOf w)) ∧
    DecodesOp m m.op.jal (fun w => .jal (addrOf w))) ∧
  ∀ (s : State) (addr : BitVec 26), ∃ target : Word,
    u32 target = u32 s.pc / 2 ^ 28 * 2 ^ 28 + 4 * addr.toNat ∧
    (u32 s.pc ≤ memCapacity → u32 target = 4 * addr.toNat) ∧
    (∃ t, exec (.j addr) s = .next t ∧ WritesPc s t target) ∧
    (∃ t, exec (.jal addr) s = .next t ∧ Links s t s.pc target)

/-! ## Loads and stores -/

/-- R220, R221, R222: lbu and lw at EA = x[rs] + sext(imm) modulo 2^32; a byte is zero-extended; a word
is the aligned word that contains EA; an EA at or above 65532 faults before the write.
The range check is the spec's decision D8. -/
def Obligations.LoadsReadMemory : Prop :=
  (OpcodeMap.default.lbu = 36 ∧ OpcodeMap.default.lw = 35) ∧
  (∀ m : Maps, m.WellFormed →
    DecodesOp m m.op.lbu (fun w => .lbu (rtOf w) (rsOf w) (immOf w)) ∧
    DecodesOp m m.op.lw (fun w => .lw (rtOf w) (rsOf w) (immOf w))) ∧
  ∀ (s : State) (rt rs : RegIx) (imm : BitVec 16) (ea : Word),
    ea = s.effAddr rs imm →
    ea = bits32 (s32 (s.x rs) + imm.toInt) ∧
    (u32 ea < memCapacity →
      (∃ t v, exec (.lbu rt rs imm) s = .next t ∧ WritesReg s t rt v ∧
        u32 v = (s.mem.read (u32 ea)).toNat) ∧
      (∃ t, exec (.lw rt rs imm) s = .next t ∧
        WritesReg s t rt (wordOfBytes s.cfg.byteOrder
          (s.mem.read (u32 ea / 4 * 4)) (s.mem.read (u32 ea / 4 * 4 + 1))
          (s.mem.read (u32 ea / 4 * 4 + 2)) (s.mem.read (u32 ea / 4 * 4 + 3))))) ∧
    (memCapacity ≤ u32 ea → ∀ i ∈ [Instr.lbu rt rs imm, .lw rt rs imm],
      ∃ t, exec i s = .next t ∧ Faults s t (.memoryOutOfRange ea) (s.pc - 4))

/-- R220, R223: sb stores the low byte of x[rt] at EA and changes no other byte; out of range it faults
and nothing is written. Canonical memory is an invariant (StepKeepsTheInvariant).
The range check is the spec's decision D8. -/
def Obligations.StoreByteWritesOneByte : Prop :=
  OpcodeMap.default.sb = 40 ∧
  (∀ m : Maps, m.WellFormed →
    DecodesOp m m.op.sb (fun w => .sb (rtOf w) (rsOf w) (immOf w))) ∧
  ∀ (s : State) (rt rs : RegIx) (imm : BitVec 16) (ea : Word),
    ea = s.effAddr rs imm →
    ea = bits32 (s32 (s.x rs) + imm.toInt) ∧
    (u32 ea < memCapacity → s.mem.wf = true →
      ∃ t, exec (.sb rt rs imm) s = .next t ∧ WritesMemOnly s t ∧
        ∀ a, t.mem.read a =
          if a = u32 ea then BitVec.ofNat 8 (u32 (s.x rt) % 256) else s.mem.read a) ∧
    (memCapacity ≤ u32 ea →
      ∃ t, exec (.sb rt rs imm) s = .next t ∧ Faults s t (.memoryOutOfRange ea) (s.pc - 4))

/-- R220, R224 and the byte order of R52: sw stores x[rt] in the aligned word that contains EA and
changes no other byte; out of range it faults and nothing is written.
The range check is the spec's decision D8. -/
def Obligations.StoreWordWritesOneWord : Prop :=
  OpcodeMap.default.sw = 43 ∧
  (∀ m : Maps, m.WellFormed →
    DecodesOp m m.op.sw (fun w => .sw (rtOf w) (rsOf w) (immOf w))) ∧
  ∀ (s : State) (rt rs : RegIx) (imm : BitVec 16) (ea : Word),
    ea = s.effAddr rs imm →
    ea = bits32 (s32 (s.x rs) + imm.toInt) ∧
    (u32 ea < memCapacity → s.mem.wf = true →
      ∃ t, exec (.sw rt rs imm) s = .next t ∧ WritesMemOnly s t ∧
        ∀ a, t.mem.read a =
          if a / 4 = u32 ea / 4 then
            match s.cfg.byteOrder with
            | .little => BitVec.ofNat 8 (u32 (s.x rt) / 2 ^ (8 * (a % 4)) % 256)
            | .big => BitVec.ofNat 8 (u32 (s.x rt) / 2 ^ (8 * (3 - a % 4)) % 256)
          else s.mem.read a) ∧
    (memCapacity ≤ u32 ea →
      ∃ t, exec (.sw rt rs imm) s = .next t ∧ Faults s t (.memoryOutOfRange ea) (s.pc - 4))

/-! ## Memory -/

/-- R51, R52: the byte and word views are one storage. A word write changes exactly its four bytes, in
the machine's order; a byte write changes exactly the word that contains it. -/
def Obligations.MemoryViewsAgree : Prop :=
  ∀ (m : Memory), m.wf = true →
    (∀ (o : ByteOrder) (k : Nat) (v : Word),
      (m.writeWord o k v).readWord o k = v ∧
      (∀ k', k' ≠ k → (m.writeWord o k v).readWord o k' = m.readWord o k') ∧
      (∀ a, a / 4 ≠ k → (m.writeWord o k v).read a = m.read a) ∧
      (∀ j < 4, (m.writeWord .little k v).read (4 * k + j) =
        BitVec.ofNat 8 (v.toNat / 2 ^ (8 * j) % 256)) ∧
      (∀ j < 4, (m.writeWord .big k v).read (4 * k + j) =
        BitVec.ofNat 8 (v.toNat / 2 ^ (8 * (3 - j)) % 256))) ∧
    (∀ (a : Nat) (b : Byte),
      (m.write a b).read a = b ∧ (∀ a', a' ≠ a → (m.write a b).read a' = m.read a') ∧
      (∀ (o : ByteOrder) k, k ≠ a / 4 → (m.write a b).readWord o k = m.readWord o k)) ∧
    (∀ k, (m.readWord .little k).toNat = (m.read (4 * k)).toNat +
      256 * (m.read (4 * k + 1)).toNat + 65536 * (m.read (4 * k + 2)).toNat +
      16777216 * (m.read (4 * k + 3)).toNat) ∧
    (∀ k, (m.readWord .big k).toNat = (m.read (4 * k + 3)).toNat +
      256 * (m.read (4 * k + 2)).toNat + 65536 * (m.read (4 * k + 1)).toNat +
      16777216 * (m.read (4 * k)).toNat)

/-- From R53, R54, R55: the range check of the two primitives, and that a word access at any address of a
word is the access at its aligned address.
The range check is the spec's own, decision D8 (20_memory.md R53). -/
def Obligations.MemoryPrimitivesCheckTheRange : Prop :=
  ∀ (s : State) (a : Word) (b : Byte) (v : Word),
    (memCapacity ≤ u32 a →
      s.memRead8 a = none ∧ s.memRead32 a = none ∧ s.memWrite8 a b = none ∧
      s.memWrite32 a v = none) ∧
    (u32 a < memCapacity →
      s.memRead8 a = some (s.mem.read (u32 a)) ∧
      s.memRead32 a = some (s.mem.readWord s.cfg.byteOrder (u32 a / 4)) ∧
      s.memWrite8 a b = some { s with mem := s.mem.write (u32 a) b } ∧
      s.memWrite32 a v = some { s with mem := s.mem.writeWord s.cfg.byteOrder (u32 a / 4) v }) ∧
    s.memRead32 (a &&& 0xFFFFFFFC) = s.memRead32 a ∧
    s.memWrite32 (a &&& 0xFFFFFFFC) v = s.memWrite32 a v

/-- R63: a store to the word at P + 4 is what the next step fetches, with no fence or delay. -/
def Obligations.StoreIsSeenByTheNextFetch : Prop :=
  ∀ (s : State) (rt rs : RegIx) (imm : BitVec 16), s.mem.wf = true →
    u32 (s.effAddr rs imm) < memCapacity → u32 (s.effAddr rs imm) / 4 = u32 s.pc / 4 →
    ∃ t, exec (.sw rt rs imm) s = .next t ∧ t.pc = s.pc ∧ t.fetchWord = s.x rt ∧
      (t.Ready → ∀ i, decode s.cfg.maps (s.x rt) = .instr i → step t = exec i t.begun)

/-- From R51, R54 and the access list of 20_memory.md: only sb and sw change memory. -/
def Obligations.OnlyStoresWriteMemory : Prop :=
  ∀ (i : Instr) (s t : State), ¬ isStore i → exec i s = .next t → t.mem = s.mem

/-! ## Registers, HI and LO, the tracing flag -/

/-- R22: register 0 reads zero and a write to it has no effect; a write to any other register is read
back, and leaves every other register and all other state alone.
That the write is discarded is the spec's decision D15. -/
def Obligations.RegisterZeroReadsZero : Prop :=
  ∀ (s : State) (i : RegIx) (v : Word),
    s.x 0 = 0 ∧ s.setX 0 v = s ∧
    (i ≠ 0 → (s.setX i v).x i = v) ∧
    (∀ r, r ≠ i → (s.setX i v).x r = s.x r) ∧
    WritesReg s (s.setX i v) i v

/-- R23, the table: an instruction writes no register outside its "writes" column, and its outcome
depends on no register outside its "reads" column (a step that ends in a fault writes no register:
R257). -/
def Obligations.RegisterAccessTable : Prop :=
  ∀ (i : Instr) (s t : State), s.cfg.maps.WellFormed → AgreeOn (readRegs s.cfg i) s t →
    (∀ s', exec i s = .next s' → KeepsRegsBut s s' (writtenRegs s.cfg i)) ∧
    (∀ s', exec i s = .next s' → ∃ t', exec i t = .next t' ∧ { s' with regs := t'.regs } = t' ∧
      (s.run = .running → s'.run = .running →
        ∀ r ∈ writtenRegs s.cfg i, r ≠ zeroReg → s'.slot r = t'.slot r)) ∧
    (∀ f, exec i s = .fault f → exec i t = .fault f)

/-- R25: mul and div are the only instructions that write HI and LO, mfhi and mflo the only others that
read them: for every other instruction HI and LO pass through any values unread and unchanged; and
mfhi and mflo leave them. -/
def Obligations.HiLoPassThroughOtherInstructions : Prop :=
  (∀ (i : Instr) (s : State) (hi lo : Word), ¬ usesHiLo i →
    exec i (s.setHiLo hi lo) = mapNext (fun t => t.setHiLo hi lo) (exec i s)) ∧
  (∀ (rd : RegIx) (s : State),
    (∃ t, exec (.mfhi rd) s = .next t ∧ KeepsHiLo s t) ∧
    (∃ t, exec (.mflo rd) s = .next t ∧ KeepsHiLo s t))

/-- From R30: only start_tracing and stop_tracing write the tracing flag. -/
def Obligations.OnlyTracingServicesWriteTheFlag : Prop :=
  ∀ (i : Instr) (s t : State), ¬ setsTrace s.cfg i → exec i s = .next t → t.trace = s.trace

/-! ## The syscall services -/

/-- From R161, R168: a syscall runs the service its code, bits 25:6, names; any other code raises
`UnknownSyscallCode(code)` with no other effect.
The place of the code field is the spec's decision D5 (log 3). That a service's word decodes to the
service's own constructor, and any other to `syscall code`, is the model's choice (log 16). -/
def Obligations.SyscallRunsItsServiceOrFaults : Prop :=
  FunctMap.default.syscall = 12 ∧
  ∀ m : Maps, m.WellFormed →
    (DecodesService m m.sys.exit .exit ∧ DecodesService m m.sys.printStr .printStr ∧
      DecodesService m m.sys.printChar .printChar ∧ DecodesService m m.sys.readChar .readChar ∧
      DecodesService m m.sys.startTracing .startTracing ∧
      DecodesService m m.sys.stopTracing .stopTracing ∧
      ∀ code, code ∉ m.sys.values → DecodesService m code (.syscall code)) ∧
    ∀ s : State, s.cfg.maps = m →
      exec (.syscall m.sys.exit) s = exec .exit s ∧
      exec (.syscall m.sys.printStr) s = exec .printStr s ∧
      exec (.syscall m.sys.printChar) s = exec .printChar s ∧
      exec (.syscall m.sys.readChar) s = exec .readChar s ∧
      exec (.syscall m.sys.startTracing) s = exec .startTracing s ∧
      exec (.syscall m.sys.stopTracing) s = exec .stopTracing s ∧
      ∀ code, code ∉ m.sys.values →
        ∃ t, exec (.syscall code) s = .next t ∧ Faults s t (.unknownSyscallCode code) (s.pc - 4)

/-- From R162: exit ends the run with status 0 and writes nothing else; the host is sent the status.
That no step follows is said in the model's form of "no step" (log 1); that the word decodes to a
constructor of its own is the model's choice (log 16), as are the host events (log 9). -/
def Obligations.ExitEndsTheRun : Prop :=
  SyscallMap.default.exit = 10 ∧
  (∀ m : Maps, m.WellFormed → DecodesService m m.sys.exit .exit) ∧
  ∀ (s : State), s.cfg.maps.WellFormed → ∀ i ∈ [Instr.exit, .syscall s.cfg.maps.sys.exit],
    ∃ t, exec i s = .next t ∧ Exits s t ∧ step t = .fault .runExited

/-- From R163: print_str sends the host the bytes before the NUL, in address order, and writes no register
(or x[2] under the alternative parameter); a string that runs past memory faults and prints nothing.
The range check, the order and the result are the spec's decision D18. Under `draw` the value in x[2] is
a free value applied to the draw count, the model's choice (log 7), as is the word's own constructor
(log 16). -/
def Obligations.PrintStrSendsTheString : Prop :=
  SyscallMap.default.printStr = 4 ∧
  (∀ m : Maps, m.WellFormed → DecodesService m m.sys.printStr .printStr) ∧
  ∀ (s : State), s.cfg.maps.WellFormed →
    ∀ i ∈ [Instr.printStr, .syscall s.cfg.maps.sys.printStr],
    (∀ n : Nat, u32 (s.x argReg) + n < memCapacity →
      (∀ k < n, s.mem.read (u32 (s.x argReg) + k) ≠ 0) →
      s.mem.read (u32 (s.x argReg) + n) = 0 →
      ∃ t, exec i s = .next t ∧
        (s.cfg.printStrResult = .unchanged →
          Sends s t [.printStr ((List.range n).map fun k => s.mem.read (u32 (s.x argReg) + k))]) ∧
        (s.cfg.printStrResult = .draw →
          Asks s t (.printStr ((List.range n).map fun k => s.mem.read (u32 (s.x argReg) + k)))
            (Config.freePrintStrResult s.hostDraws))) ∧
    (u32 (s.x argReg) < memCapacity →
      (∀ a, u32 (s.x argReg) ≤ a → a < memCapacity → s.mem.read a ≠ 0) →
      ∃ t, exec i s = .next t ∧ Faults s t (.memoryOutOfRange 65532) (s.pc - 4)) ∧
    (memCapacity ≤ u32 (s.x argReg) →
      ∃ t, exec i s = .next t ∧ Faults s t (.memoryOutOfRange (s.x argReg)) (s.pc - 4))

/-- From R164: print_char sends the low byte of x[4] and puts the host's answer, a free value, in x[2].
The low byte and the draw are the spec's decision D17. That the answer is an opaque value applied to the
draw count is the model's choice (log 7), as is the word's own constructor (log 16). -/
def Obligations.PrintCharSendsTheLowByte : Prop :=
  SyscallMap.default.printChar = 11 ∧
  (∀ m : Maps, m.WellFormed → DecodesService m m.sys.printChar .printChar) ∧
  ∀ (s : State), s.cfg.maps.WellFormed →
    ∀ i ∈ [Instr.printChar, .syscall s.cfg.maps.sys.printChar],
    ∃ t, exec i s = .next t ∧
      Asks s t (.printChar (BitVec.ofNat 8 (u32 (s.x argReg) % 256)))
        (Config.freePrintCharResult s.hostDraws)

/-- From R165: read_char puts the host's answer, a free value, in x[2]; when the host never answers, the
step never completes (a stuck state, log 8).
The draw is the spec's decision D17. That the answer is an opaque value applied to the draw count (log 7),
that the parameter hostSilentAt says when the host is silent, and the outcome then (log 8), and the
word's own constructor (log 16) are the model's choice. -/
def Obligations.ReadCharWaitsForTheHost : Prop :=
  SyscallMap.default.readChar = 12 ∧
  (∀ m : Maps, m.WellFormed → DecodesService m m.sys.readChar .readChar) ∧
  ∀ (s : State), s.cfg.maps.WellFormed →
    ∀ i ∈ [Instr.readChar, .syscall s.cfg.maps.sys.readChar],
    (s.cfg.hostSilentAt ≠ some s.hostDraws →
      ∃ t, exec i s = .next t ∧ Asks s t .readChar (Config.freeReadCharValue s.hostDraws)) ∧
    (s.cfg.hostSilentAt = some s.hostDraws → exec i s = .fault .readCharUnanswered)

/-- From R166, R167: start_tracing sets the tracing flag and stop_tracing clears it, and nothing else.
That each service's word decodes to a constructor of its own is the model's choice (log 16). -/
def Obligations.TracingServicesSetTheFlag : Prop :=
  (SyscallMap.default.startTracing = 2046 ∧ SyscallMap.default.stopTracing = 2047) ∧
  (∀ m : Maps, m.WellFormed →
    DecodesService m m.sys.startTracing .startTracing ∧
    DecodesService m m.sys.stopTracing .stopTracing) ∧
  ∀ (s : State), s.cfg.maps.WellFormed →
    (∀ i ∈ [Instr.startTracing, .syscall s.cfg.maps.sys.startTracing],
      ∃ t, exec i s = .next t ∧ SetsTrace s t true) ∧
    (∀ i ∈ [Instr.stopTracing, .syscall s.cfg.maps.sys.stopTracing],
      ∃ t, exec i s = .next t ∧ SetsTrace s t false)

/-! ## Faults and the invariant check -/

/-- From R252: the seven tests in the spec's order; the first that fails names the kind.
The order is the spec's decision D24. The last test looks at the stored slot of register 0 where R252
writes x[0], the model's choice (log 11). -/
def Obligations.InvariantCheckReportsTheFirstFailure : Prop :=
  ∀ s : State,
    let aligned := fun i : RegIx => u32 (s.x i) % 4 = 0
    let ordered := 0 ≤ s32 (s.x 28) ∧ s32 (s.x 28) < s32 (s.x 29) ∧ s32 (s.x 29) ≤ s32 (s.x 30) ∧
      s32 (s.x 30) < 65532
    (s.checkInvariants = some .pcAlign ↔ u32 s.pc % 4 ≠ 0) ∧
    (s.checkInvariants = some .pcRange ↔ u32 s.pc % 4 = 0 ∧ 65532 ≤ u32 s.pc) ∧
    (s.checkInvariants = some .gpAlign ↔ u32 s.pc % 4 = 0 ∧ u32 s.pc < 65532 ∧ ¬ aligned 28) ∧
    (s.checkInvariants = some .spAlign ↔ u32 s.pc % 4 = 0 ∧ u32 s.pc < 65532 ∧ aligned 28 ∧
      ¬ aligned 29) ∧
    (s.checkInvariants = some .fpAlign ↔ u32 s.pc % 4 = 0 ∧ u32 s.pc < 65532 ∧ aligned 28 ∧
      aligned 29 ∧ ¬ aligned 30) ∧
    (s.checkInvariants = some .stackOrder ↔ u32 s.pc % 4 = 0 ∧ u32 s.pc < 65532 ∧ aligned 28 ∧
      aligned 29 ∧ aligned 30 ∧ ¬ ordered) ∧
    (s.checkInvariants = some .zeroReg ↔ u32 s.pc % 4 = 0 ∧ u32 s.pc < 65532 ∧ aligned 28 ∧
      aligned 29 ∧ aligned 30 ∧ ordered ∧ s.slot 0 ≠ 0) ∧
    (s.checkInvariants = none ↔ u32 s.pc % 4 = 0 ∧ u32 s.pc < 65532 ∧ aligned 28 ∧
      aligned 29 ∧ aligned 30 ∧ ordered ∧ s.slot 0 = 0)

/-- From R116, R257, R258: a step that ends in a fault has changed nothing but the run state, what the host
was sent, and, when the fault came from dispatch, pc to P + 4; the recorded address is P, and no step
follows (in the form log 1 gives that, the model's and not the spec's).
What a fault records is the spec's decision D24. -/
def Obligations.FaultsArePrecise : Prop :=
  ∀ (s t : State) (c : Cause) (p : Word), step s = .next t → t.run = .faulted c p →
    p = s.pc ∧ step t = .fault .runFaulted ∧
    (s.checkInvariants ≠ none → Faults s t c p) ∧
    (s.checkInvariants = none → Faults s.begun t c p ∧ t.pc = s.pc + 4)

/-- R255: which faults an instruction can raise in its own step. -/
def Obligations.FaultsEachInstructionMayRaise : Prop :=
  ∀ (i : Instr) (s t : State) (c : Cause) (p : Word), s.run = .running → exec i s = .next t →
    t.run = .faulted c p → mayRaise s.cfg i c ∧ p = s.pc - 4

/-- From R22, R34, R254 (the raw slot the test looks at is log 11): in a state that meets the invariant
the ZERO_REG test never fires. -/
def Obligations.ZeroRegTestNeverFires : Prop :=
  ∀ (s t : State) (p : Word), s.Inv → step s = .next t →
    t.run ≠ .faulted (.invariantViolation .zeroReg) p

/-! ## Invariants -/

/-- From every state that meets the invariant, a step gives one that meets it: memory stays canonical
and inside its 65532 bytes (20_memory.md R50, R54), slot 0 of the register file stays zero (10_state.md
R22), and an ended run has told the host so (60_exceptions.md R257, R262). -/
def Obligations.StepKeepsTheInvariant : Prop :=
  ∀ s t : State, s.Inv → step s = .next t → t.Inv

/-- State.reset meets the invariant. -/
def Obligations.ResetMeetsTheInvariant : Prop := State.reset.Inv

/-- From R6 (log 2) and R262: no step changes the parameters, what the host was sent is never taken
back, and a step draws at most one value. -/
def Obligations.ParametersNeverChange : Prop :=
  ∀ s t : State, step s = .next t →
    t.cfg = s.cfg ∧ (∃ es, t.hostLog = s.hostLog ++ es) ∧
    (t.hostDraws = s.hostDraws ∨ t.hostDraws = s.hostDraws + 1)

/-! ## Tracing -/

/-- From R30, R263: tracing changes no other state. Two machines that differ only in the tracing flag
and in trace records already sent stay so through a step. -/
def Obligations.TracingIsInvisible : Prop :=
  ∀ s t : State, SameButTrace s t →
    (∀ s', step s = .next s' → ∃ t', step t = .next t' ∧ SameButTrace s' t') ∧
    (∀ f, step s = .fault f → step t = .fault f)

/-- R264, R265: the register dump names all 32 registers in order, six a line with the remainder on the
last; pc is always shown; HI and LO only when at least one is non-zero. -/
def Obligations.TraceDumpsTheRegisters : Prop :=
  ∀ s : State,
    (traceRecord s).registers.flatten = (List.finRange 32).map (fun i => (i, s.x i)) ∧
    (traceRecord s).registers.map List.length = [6, 6, 6, 6, 6, 2] ∧
    (traceRecord s).pc = s.pc ∧
    ((traceRecord s).hiLo = none ↔ s.hi = 0 ∧ s.lo = 0) ∧
    (∀ hl, (traceRecord s).hiLo = some hl → hl = (s.hi, s.lo))

/-- R266: the dump of a range walks its words; a zero word is printed, with the marker, only when the
word before it is not zero; five entries a line, the last flushed whatever its length; the ranges are
`[GP, SP)` and `[SP, FP]`. -/
def Obligations.RangeDumpCollapsesZeroRuns : Prop :=
  (dumpEntries [] = [] ∧
    ∀ (ws : List (Word × Word)) (a v : Word), dumpEntries (ws ++ [(a, v)]) =
      dumpEntries ws ++
        if v = 0 ∧ ws.getLast?.map Prod.snd = some 0 then [] else [⟨a, v, decide (v = 0)⟩]) ∧
  (∀ es : List DumpEntry, (linesOf 5 es).flatten = es ∧
    (∀ l ∈ linesOf 5 es, 1 ≤ l.length ∧ l.length ≤ 5) ∧
    (∀ l ∈ (linesOf 5 es).dropLast, l.length = 5)) ∧
  ∀ s : State, s.checkInvariants = none →
    (traceRecord s).data = linesOf 5 (dumpEntries
      ((List.range ((u32 (s.x 29) - u32 (s.x 28)) / 4)).map fun j =>
        (s.x 28 + BitVec.ofNat 32 (4 * j),
          s.mem.readWord s.cfg.byteOrder (u32 (s.x 28) / 4 + j)))) ∧
    (traceRecord s).stack = linesOf 5 (dumpEntries
      ((List.range ((u32 (s.x 30) - u32 (s.x 29)) / 4 + 1)).map fun j =>
        (s.x 29 + BitVec.ofNat 32 (4 * j),
          s.mem.readWord s.cfg.byteOrder (u32 (s.x 29) / 4 + j))))

/-! ## Reset -/

/-- From R292 (and the table of R34): what an admissible load leaves, whatever the header, streams and
parameters; the data words win where the segments overlap, an inference R292 marks as derived from the
order of the source's list. hostDraws and hostLog are the model's own (logs 7, 9).
Zeroing all of memory (log 13), HI and LO (log 14), and TRACE_INIT are the spec's decisions D20, D21,
D16. -/
def Obligations.LoadSetsTheState : Prop :=
  ∀ (c : Config) (h : Header) (text data : List Word), admissible h text data = true →
    ∃ s, load c h text data = some s ∧
      s.x 28 = h.dataStart ∧ s.x 29 = h.stackBottom ∧ s.x 30 = h.stackBottom ∧
      (∀ i : RegIx, i ∉ [28, 29, 30] → s.slot i = 0) ∧
      s.hi = 0 ∧ s.lo = 0 ∧ s.pc = h.textStart ∧ s.run = .running ∧ s.trace = c.traceInit ∧
      s.cfg = c ∧
      (∀ j < u32 h.dataLength / 4,
        some (s.mem.readWord c.byteOrder (u32 h.dataStart / 4 + j)) = data[j]?) ∧
      (∀ j < u32 h.textLength / 4,
        (∀ j' < u32 h.dataLength / 4, u32 h.dataStart / 4 + j' ≠ u32 h.textStart / 4 + j) →
        some (s.mem.readWord c.byteOrder (u32 h.textStart / 4 + j)) = text[j]?) ∧
      (∀ k, (∀ j < u32 h.textLength / 4, u32 h.textStart / 4 + j ≠ k) →
        (∀ j < u32 h.dataLength / 4, u32 h.dataStart / 4 + j ≠ k) →
        s.mem.readWord c.byteOrder k = 0)

/-- R293: a load is performed only when every copy lands inside memory and the streams hold the entries
copied; otherwise there is no reset.
The refusal is the spec's decision D19. -/
def Obligations.LoadRefusesAnInadmissibleImage : Prop :=
  ∀ (c : Config) (h : Header) (text data : List Word),
    (load c h text data).isSome = true ↔
      (u32 h.textStart + 4 * (u32 h.textLength / 4) ≤ 65532 ∧
        u32 h.dataStart + 4 * (u32 h.dataLength / 4) ≤ 65532 ∧
        u32 h.textLength / 4 ≤ text.length ∧ u32 h.dataLength / 4 ≤ data.length)

/-- From R294: after an admissible reset the step invariants hold if and only if the header is well-formed;
when it is not, the first step faults before its fetch.
An inference the spec marks as derived. -/
def Obligations.InvariantsHoldIffTheHeaderIsWellFormed : Prop :=
  ∀ (c : Config) (h : Header) (text data : List Word) (s : State), load c h text data = some s →
    (s.checkInvariants = none ↔
      (u32 h.textStart % 4 = 0 ∧ u32 h.dataStart % 4 = 0 ∧ u32 h.stackBottom % 4 = 0 ∧
        u32 h.textStart < 65532 ∧ 0 ≤ s32 h.dataStart ∧ s32 h.dataStart < s32 h.stackBottom ∧
        s32 h.stackBottom < 65532)) ∧
    (s.checkInvariants ≠ none →
      ∃ t kind, step s = .next t ∧ Faults s t (.invariantViolation kind) h.textStart)

/-- State.reset is a load of the header log 6 names, with an empty image, under the default parameters:
the model's choice (logs 3 to 6, 8, 12), not the spec's. -/
def Obligations.ResetIsALoadOfTheNamedHeader : Prop :=
  load .default resetHeader [] [] = some State.reset ∧ headerWellFormed resetHeader = true ∧
  Config.default.WellFormed ∧ State.reset.Ready
end

