-- ==== Sys2Proof/Laws/State.lean ====
section
/-! SUPPORT. One lemma per field per update of the state, so that no later proof unfolds a record
update. -/

namespace Sys2Proof.Machine

variable (s : State) (i : RegIx) (v hi lo p : Word) (e : HostEvent) (c : Cause) (b : Bool)
  (imm : BitVec 16)

/-! ## `setX` -/

@[simp] theorem State.setX_hi : (s.setX i v).hi = s.hi := by unfold State.setX; split <;> rfl
@[simp] theorem State.setX_lo : (s.setX i v).lo = s.lo := by unfold State.setX; split <;> rfl
@[simp] theorem State.setX_pc : (s.setX i v).pc = s.pc := by unfold State.setX; split <;> rfl
@[simp] theorem State.setX_mem : (s.setX i v).mem = s.mem := by unfold State.setX; split <;> rfl
@[simp] theorem State.setX_run : (s.setX i v).run = s.run := by unfold State.setX; split <;> rfl
@[simp] theorem State.setX_trace : (s.setX i v).trace = s.trace := by
  unfold State.setX; split <;> rfl
@[simp] theorem State.setX_cfg : (s.setX i v).cfg = s.cfg := by unfold State.setX; split <;> rfl
@[simp] theorem State.setX_hostDraws : (s.setX i v).hostDraws = s.hostDraws := by
  unfold State.setX; split <;> rfl
@[simp] theorem State.setX_hostLog : (s.setX i v).hostLog = s.hostLog := by
  unfold State.setX; split <;> rfl

/-- A write lands in its slot, but in slot 0 (R22). -/
theorem State.setX_slot (r : RegIx) :
    (s.setX i v).slot r = if r = i ∧ r ≠ zeroReg then v else s.slot r := by
  unfold State.setX State.slot
  by_cases h : i = zeroReg
  · simp only [h, if_true]; split <;> simp_all
  · by_cases h' : r = i
    · subst h'; simp [h, Vector.get_eq_getElem]
    · have : i.val ≠ r.val := fun e => h' (Fin.ext e.symm)
      simp [h, h', Vector.get_eq_getElem, this]

/-! ## `setHiLo` -/

@[simp] theorem State.setHiLo_hi : (s.setHiLo hi lo).hi = hi := rfl
@[simp] theorem State.setHiLo_lo : (s.setHiLo hi lo).lo = lo := rfl
@[simp] theorem State.setHiLo_slot : (s.setHiLo hi lo).slot i = s.slot i := rfl
@[simp] theorem State.setHiLo_x : (s.setHiLo hi lo).x i = s.x i := rfl
@[simp] theorem State.setHiLo_pc : (s.setHiLo hi lo).pc = s.pc := rfl
@[simp] theorem State.setHiLo_mem : (s.setHiLo hi lo).mem = s.mem := rfl
@[simp] theorem State.setHiLo_run : (s.setHiLo hi lo).run = s.run := rfl
@[simp] theorem State.setHiLo_trace : (s.setHiLo hi lo).trace = s.trace := rfl
@[simp] theorem State.setHiLo_cfg : (s.setHiLo hi lo).cfg = s.cfg := rfl
@[simp] theorem State.setHiLo_hostDraws : (s.setHiLo hi lo).hostDraws = s.hostDraws := rfl
@[simp] theorem State.setHiLo_hostLog : (s.setHiLo hi lo).hostLog = s.hostLog := rfl

/-! ## `setPc` and `advance` -/

@[simp] theorem State.setPc_pc : (s.setPc p).pc = p := rfl
@[simp] theorem State.setPc_slot : (s.setPc p).slot i = s.slot i := rfl
@[simp] theorem State.setPc_x : (s.setPc p).x i = s.x i := rfl
@[simp] theorem State.setPc_hi : (s.setPc p).hi = s.hi := rfl
@[simp] theorem State.setPc_lo : (s.setPc p).lo = s.lo := rfl
@[simp] theorem State.setPc_mem : (s.setPc p).mem = s.mem := rfl
@[simp] theorem State.setPc_run : (s.setPc p).run = s.run := rfl
@[simp] theorem State.setPc_trace : (s.setPc p).trace = s.trace := rfl
@[simp] theorem State.setPc_cfg : (s.setPc p).cfg = s.cfg := rfl
@[simp] theorem State.setPc_hostDraws : (s.setPc p).hostDraws = s.hostDraws := rfl
@[simp] theorem State.setPc_hostLog : (s.setPc p).hostLog = s.hostLog := rfl

theorem State.advance_eq : s.advance = s.setPc (s.pc + 4) := rfl

/-! ## `send` and `drawn` -/

@[simp] theorem State.send_hostLog : (s.send e).hostLog = s.hostLog ++ [e] := rfl
@[simp] theorem State.send_slot : (s.send e).slot i = s.slot i := rfl
@[simp] theorem State.send_x : (s.send e).x i = s.x i := rfl
@[simp] theorem State.send_hi : (s.send e).hi = s.hi := rfl
@[simp] theorem State.send_lo : (s.send e).lo = s.lo := rfl
@[simp] theorem State.send_pc : (s.send e).pc = s.pc := rfl
@[simp] theorem State.send_mem : (s.send e).mem = s.mem := rfl
@[simp] theorem State.send_run : (s.send e).run = s.run := rfl
@[simp] theorem State.send_trace : (s.send e).trace = s.trace := rfl
@[simp] theorem State.send_cfg : (s.send e).cfg = s.cfg := rfl
@[simp] theorem State.send_hostDraws : (s.send e).hostDraws = s.hostDraws := rfl

@[simp] theorem State.drawn_hostDraws : s.drawn.hostDraws = s.hostDraws + 1 := rfl
@[simp] theorem State.drawn_slot : s.drawn.slot i = s.slot i := rfl
@[simp] theorem State.drawn_x : s.drawn.x i = s.x i := rfl
@[simp] theorem State.drawn_hi : s.drawn.hi = s.hi := rfl
@[simp] theorem State.drawn_lo : s.drawn.lo = s.lo := rfl
@[simp] theorem State.drawn_pc : s.drawn.pc = s.pc := rfl
@[simp] theorem State.drawn_mem : s.drawn.mem = s.mem := rfl
@[simp] theorem State.drawn_run : s.drawn.run = s.run := rfl
@[simp] theorem State.drawn_trace : s.drawn.trace = s.trace := rfl
@[simp] theorem State.drawn_cfg : s.drawn.cfg = s.cfg := rfl
@[simp] theorem State.drawn_hostLog : s.drawn.hostLog = s.hostLog := rfl

/-! ## `raiseAt` -/

@[simp] theorem State.raiseAt_run : (s.raiseAt c p).run = .faulted c p := rfl
@[simp] theorem State.raiseAt_hostLog :
    (s.raiseAt c p).hostLog = s.hostLog ++ [.diagnostic c p s.cfg.exitStatusFault] := rfl
@[simp] theorem State.raiseAt_slot : (s.raiseAt c p).slot i = s.slot i := rfl
@[simp] theorem State.raiseAt_x : (s.raiseAt c p).x i = s.x i := rfl
@[simp] theorem State.raiseAt_hi : (s.raiseAt c p).hi = s.hi := rfl
@[simp] theorem State.raiseAt_lo : (s.raiseAt c p).lo = s.lo := rfl
@[simp] theorem State.raiseAt_pc : (s.raiseAt c p).pc = s.pc := rfl
@[simp] theorem State.raiseAt_mem : (s.raiseAt c p).mem = s.mem := rfl
@[simp] theorem State.raiseAt_trace : (s.raiseAt c p).trace = s.trace := rfl
@[simp] theorem State.raiseAt_cfg : (s.raiseAt c p).cfg = s.cfg := rfl
@[simp] theorem State.raiseAt_hostDraws : (s.raiseAt c p).hostDraws = s.hostDraws := rfl

/-! ## `branchIf` -/

@[simp] theorem State.branchIf_pc :
    (s.branchIf b imm).pc = if b then branchTarget s.pc imm else s.pc := by
  cases b <;> rfl
@[simp] theorem State.branchIf_slot : (s.branchIf b imm).slot i = s.slot i := by cases b <;> rfl
@[simp] theorem State.branchIf_x : (s.branchIf b imm).x i = s.x i := by cases b <;> rfl
@[simp] theorem State.branchIf_hi : (s.branchIf b imm).hi = s.hi := by cases b <;> rfl
@[simp] theorem State.branchIf_lo : (s.branchIf b imm).lo = s.lo := by cases b <;> rfl
@[simp] theorem State.branchIf_mem : (s.branchIf b imm).mem = s.mem := by cases b <;> rfl
@[simp] theorem State.branchIf_run : (s.branchIf b imm).run = s.run := by cases b <;> rfl
@[simp] theorem State.branchIf_trace : (s.branchIf b imm).trace = s.trace := by cases b <;> rfl
@[simp] theorem State.branchIf_cfg : (s.branchIf b imm).cfg = s.cfg := by cases b <;> rfl
@[simp] theorem State.branchIf_hostDraws : (s.branchIf b imm).hostDraws = s.hostDraws := by
  cases b <;> rfl
@[simp] theorem State.branchIf_hostLog : (s.branchIf b imm).hostLog = s.hostLog := by
  cases b <;> rfl

/-! ## `traced` and `begun` -/

@[simp] theorem State.traced_slot : s.traced.slot i = s.slot i := by
  unfold State.traced; split <;> rfl
@[simp] theorem State.traced_x : s.traced.x i = s.x i := by unfold State.traced; split <;> rfl
@[simp] theorem State.traced_hi : s.traced.hi = s.hi := by unfold State.traced; split <;> rfl
@[simp] theorem State.traced_lo : s.traced.lo = s.lo := by unfold State.traced; split <;> rfl
@[simp] theorem State.traced_pc : s.traced.pc = s.pc := by unfold State.traced; split <;> rfl
@[simp] theorem State.traced_mem : s.traced.mem = s.mem := by unfold State.traced; split <;> rfl
@[simp] theorem State.traced_run : s.traced.run = s.run := by unfold State.traced; split <;> rfl
@[simp] theorem State.traced_trace : s.traced.trace = s.trace := by
  unfold State.traced; split <;> rfl
@[simp] theorem State.traced_cfg : s.traced.cfg = s.cfg := by unfold State.traced; split <;> rfl
@[simp] theorem State.traced_hostDraws : s.traced.hostDraws = s.hostDraws := by
  unfold State.traced; split <;> rfl
@[simp] theorem State.traced_hostLog :
    s.traced.hostLog = s.hostLog ++ if s.trace then [.trace (traceRecord s)] else [] := by
  unfold State.traced; split <;> simp_all

@[simp] theorem State.begun_pc : s.begun.pc = s.pc + 4 := by
  simp [State.begun, State.advance_eq]
@[simp] theorem State.begun_slot : s.begun.slot i = s.slot i := by
  simp [State.begun, State.advance_eq]
@[simp] theorem State.begun_x : s.begun.x i = s.x i := by simp [State.begun, State.advance_eq]
@[simp] theorem State.begun_hi : s.begun.hi = s.hi := by simp [State.begun, State.advance_eq]
@[simp] theorem State.begun_lo : s.begun.lo = s.lo := by simp [State.begun, State.advance_eq]
@[simp] theorem State.begun_mem : s.begun.mem = s.mem := by simp [State.begun, State.advance_eq]
@[simp] theorem State.begun_run : s.begun.run = s.run := by simp [State.begun, State.advance_eq]
@[simp] theorem State.begun_trace : s.begun.trace = s.trace := by
  simp [State.begun, State.advance_eq]
@[simp] theorem State.begun_cfg : s.begun.cfg = s.cfg := by simp [State.begun, State.advance_eq]
@[simp] theorem State.begun_hostDraws : s.begun.hostDraws = s.hostDraws := by
  simp [State.begun, State.advance_eq]
@[simp] theorem State.begun_hostLog :
    s.begun.hostLog = s.hostLog ++ if s.trace then [.trace (traceRecord s)] else [] := by
  simp [State.begun, State.advance_eq]

/-- From inside dispatch, `P` is the address the instruction was fetched from (R114). -/
@[simp] theorem State.begun_instrAddr : s.begun.instrAddr = s.pc := by
  simp [State.instrAddr]

end Sys2Proof.Machine
end

