-- ==== Sys2Proof/Laws/Encoding.lean ====
section
/-! SUPPORT. Words as numbers: the value of an encoded word, and of each field of a word, so that the
fields of an encoded word are found by arithmetic (spec/30_encoding.md R81). -/

namespace Sys2Proof

/-- The value of a concatenation. -/
theorem toNat_append_eq {n m : Nat} (a : BitVec n) (b : BitVec m) :
    (a ++ b).toNat = a.toNat * 2 ^ m + b.toNat := by
  rw [BitVec.toNat_append, ← Nat.shiftLeft_add_eq_or_of_lt b.isLt, Nat.shiftLeft_eq]

@[simp] theorem field5_toNat (n : Fin 32) : (field5 n).toNat = n.val := rfl

theorem wordR_toNat (rs rt rd : RegIx) (n : ShiftCount) (f : BitVec 6) :
    (wordR rs rt rd n f).toNat =
      (((rs.val * 32 + rt.val) * 32 + rd.val) * 32 + n.val) * 64 + f.toNat := by
  have h : ((0 : BitVec 6) ++ field5 rs ++ field5 rt ++ field5 rd ++ field5 n ++ f :
      BitVec (6 + 5 + 5 + 5 + 5 + 6)).toNat =
      (((rs.val * 32 + rt.val) * 32 + rd.val) * 32 + n.val) * 64 + f.toNat := by
    have h0 : (0 : BitVec 6).toNat = 0 := rfl
    simp only [toNat_append_eq, field5_toNat, h0]; omega
  exact h

theorem wordSyscall_toNat (m : Maps) (code : BitVec 20) :
    (wordSyscall m code).toNat = code.toNat * 64 + m.funct.syscall.toNat := by
  have h : ((0 : BitVec 6) ++ code ++ m.funct.syscall : BitVec (6 + 20 + 6)).toNat =
      code.toNat * 64 + m.funct.syscall.toNat := by
    have h0 : (0 : BitVec 6).toNat = 0 := rfl
    simp only [toNat_append_eq, h0]; omega
  exact h

theorem wordI_toNat (op : BitVec 6) (rs rt : RegIx) (imm : BitVec 16) :
    (wordI op rs rt imm).toNat =
      ((op.toNat * 32 + rs.val) * 32 + rt.val) * 65536 + imm.toNat := by
  have h : (op ++ field5 rs ++ field5 rt ++ imm : BitVec (6 + 5 + 5 + 16)).toNat =
      ((op.toNat * 32 + rs.val) * 32 + rt.val) * 65536 + imm.toNat := by
    simp only [toNat_append_eq, field5_toNat]; omega
  exact h

theorem wordJ_toNat (op : BitVec 6) (addr : BitVec 26) :
    (wordJ op addr).toNat = op.toNat * 67108864 + addr.toNat := by
  have h : (op ++ addr : BitVec (6 + 26)).toNat = op.toNat * 67108864 + addr.toNat := by
    simp only [toNat_append_eq]; omega
  exact h

/-! ## Fields as arithmetic -/

theorem opOf_toNat (w : Word) : (opOf w).toNat = w.toNat / 67108864 := by
  have := w.isLt
  simp [opOf, Nat.shiftRight_eq_div_pow]; omega

theorem rsOf_val (w : Word) : (rsOf w).val = w.toNat / 2097152 % 32 := by
  simp [rsOf, Nat.shiftRight_eq_div_pow]

theorem rtOf_val (w : Word) : (rtOf w).val = w.toNat / 65536 % 32 := by
  simp [rtOf, Nat.shiftRight_eq_div_pow]

theorem rdOf_val (w : Word) : (rdOf w).val = w.toNat / 2048 % 32 := by
  simp [rdOf, Nat.shiftRight_eq_div_pow]

theorem shamtOf_val (w : Word) : (shamtOf w).val = w.toNat / 64 % 32 := by
  simp [shamtOf, Nat.shiftRight_eq_div_pow]

theorem functOf_toNat (w : Word) : (functOf w).toNat = w.toNat % 64 := by
  simp [functOf]

theorem codeOf_toNat (w : Word) : (codeOf w).toNat = w.toNat / 64 % 1048576 := by
  simp [codeOf, Nat.shiftRight_eq_div_pow]

theorem immOf_toNat (w : Word) : (immOf w).toNat = w.toNat % 65536 := by
  simp [immOf]

theorem addrOf_toNat (w : Word) : (addrOf w).toNat = w.toNat % 67108864 := by
  simp [addrOf]

/-! ## The fields of an encoded word -/

section fields
variable (rs rt rd : RegIx) (n : ShiftCount) (f op : BitVec 6) (imm : BitVec 16) (addr : BitVec 26)
  (m : Maps) (code : BitVec 20)

@[simp] theorem opOf_wordR : opOf (wordR rs rt rd n f) = 0 := by
  apply BitVec.eq_of_toNat_eq
  have := f.isLt
  rw [opOf_toNat, wordR_toNat]; simp; omega

@[simp] theorem rsOf_wordR : rsOf (wordR rs rt rd n f) = rs := by
  apply Fin.ext
  have := f.isLt
  rw [rsOf_val, wordR_toNat]; omega

@[simp] theorem rtOf_wordR : rtOf (wordR rs rt rd n f) = rt := by
  apply Fin.ext
  have := f.isLt
  rw [rtOf_val, wordR_toNat]; omega

@[simp] theorem rdOf_wordR : rdOf (wordR rs rt rd n f) = rd := by
  apply Fin.ext
  have := f.isLt
  rw [rdOf_val, wordR_toNat]; omega

@[simp] theorem shamtOf_wordR : shamtOf (wordR rs rt rd n f) = n := by
  apply Fin.ext
  have := f.isLt
  rw [shamtOf_val, wordR_toNat]; omega

@[simp] theorem functOf_wordR : functOf (wordR rs rt rd n f) = f := by
  apply BitVec.eq_of_toNat_eq
  have := f.isLt
  rw [functOf_toNat, wordR_toNat]; omega

@[simp] theorem opOf_wordSyscall : opOf (wordSyscall m code) = 0 := by
  apply BitVec.eq_of_toNat_eq
  have := m.funct.syscall.isLt
  have := code.isLt
  rw [opOf_toNat, wordSyscall_toNat]; simp; omega

@[simp] theorem functOf_wordSyscall : functOf (wordSyscall m code) = m.funct.syscall := by
  apply BitVec.eq_of_toNat_eq
  have := m.funct.syscall.isLt
  rw [functOf_toNat, wordSyscall_toNat]; omega

@[simp] theorem codeOf_wordSyscall : codeOf (wordSyscall m code) = code := by
  apply BitVec.eq_of_toNat_eq
  have := m.funct.syscall.isLt
  have := code.isLt
  rw [codeOf_toNat, wordSyscall_toNat]; omega

@[simp] theorem opOf_wordI : opOf (wordI op rs rt imm) = op := by
  apply BitVec.eq_of_toNat_eq
  have := imm.isLt
  rw [opOf_toNat, wordI_toNat]; omega

@[simp] theorem rsOf_wordI : rsOf (wordI op rs rt imm) = rs := by
  apply Fin.ext
  have := imm.isLt
  rw [rsOf_val, wordI_toNat]; omega

@[simp] theorem rtOf_wordI : rtOf (wordI op rs rt imm) = rt := by
  apply Fin.ext
  have := imm.isLt
  rw [rtOf_val, wordI_toNat]; omega

@[simp] theorem immOf_wordI : immOf (wordI op rs rt imm) = imm := by
  apply BitVec.eq_of_toNat_eq
  have := imm.isLt
  rw [immOf_toNat, wordI_toNat]; omega

@[simp] theorem opOf_wordJ : opOf (wordJ op addr) = op := by
  apply BitVec.eq_of_toNat_eq
  have := addr.isLt
  rw [opOf_toNat, wordJ_toNat]; omega

@[simp] theorem addrOf_wordJ : addrOf (wordJ op addr) = addr := by
  apply BitVec.eq_of_toNat_eq
  have := addr.isLt
  rw [addrOf_toNat, wordJ_toNat]; omega

end fields

/-! ## Distinct codes -/

/-- In a list without repeats, a later entry is not an earlier one: the form in which the decoder's
tests meet the maps' distinctness (R88). -/
theorem later_ne_earlier {α : Type} {l : List α} (h : l.Nodup) : l.Pairwise fun a b => ¬ b = a :=
  h.imp fun hab e => hab e.symm

/-- R88's distinctness of the function codes, one inequality per test the decoder makes. -/
theorem FunctMap.later_ne {m : FunctMap} (h : m.WellFormed) :
    m.values.Pairwise fun a b => ¬ b = a := later_ne_earlier h

/-- R88's distinctness of the opcodes, one inequality per test the decoder makes. -/
theorem OpcodeMap.later_ne {m : OpcodeMap} (h : m.WellFormed) :
    m.values.Pairwise fun a b => ¬ b = a := later_ne_earlier h

/-- R88's distinctness of the syscall codes, one inequality per test the decoder makes. -/
theorem SyscallMap.later_ne {m : SyscallMap} (h : m.WellFormed) :
    m.values.Pairwise fun a b => ¬ b = a := later_ne_earlier h

end Sys2Proof
end

