-- ==== Sys2Proof/Laws/Memory.lean ====
section
/-! SUPPORT. The laws of memory: a write keeps the canonical form and the range, and a read sees the
last write to its address and no other (spec/20_memory.md R51 to R54, R59). -/

namespace Sys2Proof.Machine

theorem Memory.rising_cons (c : Host.Cell) (m : Memory) :
    Memory.rising (c :: m) = true ↔ (∀ d ∈ m, c.1 < d.1) ∧ Memory.rising m = true := by
  induction m generalizing c with
  | nil => simp [Memory.rising]
  | cons d m ih =>
    simp only [Memory.rising, Bool.and_eq_true, decide_eq_true_eq, ih d, List.mem_cons,
      forall_eq_or_imp]
    constructor
    · rintro ⟨hcd, hd, hm⟩
      exact ⟨⟨hcd, fun e he => lt_trans hcd (hd e he)⟩, hd, hm⟩
    · rintro ⟨⟨hcd, _⟩, hd, hm⟩
      exact ⟨hcd, hd, hm⟩

/-- The canonical form of a list with one more cell in front. -/
theorem Memory.wf_cons (c : Host.Cell) (m : Memory) :
    Memory.wf (c :: m) = true ↔
      (∀ d ∈ m, c.1 < d.1) ∧ c.2 ≠ unlistedByte ∧ Memory.wf m = true := by
  simp only [Memory.wf, Bool.and_eq_true, Memory.rising_cons, List.all_cons, decide_eq_true_eq]
  tauto

@[simp] theorem Memory.wf_nil : Memory.wf [] = true := rfl

/-- Every cell of a written memory is a cell of the old one, or the written one. -/
theorem Memory.mem_write {m : Memory} {a : Nat} {b : Byte} {d : Host.Cell}
    (h : d ∈ m.write a b) : d ∈ m ∨ d = (a, b) := by
  induction m with
  | nil => simp only [Memory.write, Memory.consCell] at h; split at h <;> simp_all
  | cons c m ih =>
    obtain ⟨k, v⟩ := c
    simp only [Memory.write, Memory.consCell] at h
    split at h
    · split at h <;> simp_all; tauto
    · split at h
      · split at h <;> simp_all; tauto
      · simp only [List.mem_cons] at h ⊢
        rcases h with h | h
        · exact .inl (.inl h)
        · rcases ih h with h | h
          · exact .inl (.inr h)
          · exact .inr h

/-- A write keeps the canonical form. -/
theorem Memory.write_wf {m : Memory} (a : Nat) (b : Byte) (h : m.wf = true) :
    (m.write a b).wf = true := by
  induction m with
  | nil =>
    simp only [Memory.write, Memory.consCell]
    split
    · rfl
    · rename_i hb; simp [Memory.wf_cons, hb]
  | cons c m ih =>
    obtain ⟨k, v⟩ := c
    have hc := (Memory.wf_cons _ _).1 h
    simp only [Memory.write, Memory.consCell]
    split
    · rename_i hak
      split
      · exact h
      · rename_i hb
        refine (Memory.wf_cons _ _).2 ⟨?_, hb, h⟩
        intro d hd
        rcases List.mem_cons.1 hd with rfl | hd
        · exact hak
        · exact lt_trans hak (hc.1 d hd)
    · split
      · rename_i hak
        split
        · exact hc.2.2
        · rename_i hb
          exact (Memory.wf_cons _ _).2 ⟨fun d hd => hak ▸ hc.1 d hd, hb, hc.2.2⟩
      · refine (Memory.wf_cons _ _).2 ⟨?_, hc.2.1, ih hc.2.2⟩
        intro d hd
        rcases Memory.mem_write hd with hd | rfl
        · exact hc.1 d hd
        · show k < a
          omega

/-- A write at an address that exists keeps every listed address existing. -/
theorem Memory.write_inRange {m : Memory} {a : Nat} (b : Byte) (ha : a < memCapacity)
    (h : m.inRange = true) : (m.write a b).inRange = true := by
  simp only [Memory.inRange, List.all_eq_true, decide_eq_true_eq] at h ⊢
  intro d hd
  rcases Memory.mem_write hd with hd | rfl
  · exact h d hd
  · exact ha

/-- In a canonical memory, an address below every listed one is not listed. -/
theorem Memory.read_of_lt {m : Memory} {a : Nat} (h : ∀ d ∈ m, a < d.1) :
    m.read a = unlistedByte := by
  induction m with
  | nil => rfl
  | cons c m ih =>
    obtain ⟨k, v⟩ := c
    have hk : a < k := h (k, v) (by simp)
    simp only [Memory.read]
    rw [if_neg (by omega), ih fun d hd => h d (List.mem_cons_of_mem _ hd)]

/-- A read of the written address gives the written byte, in a canonical memory. -/
theorem Memory.read_write_same {m : Memory} (a : Nat) (b : Byte) (h : m.wf = true) :
    (m.write a b).read a = b := by
  induction m with
  | nil =>
    simp only [Memory.write, Memory.consCell]
    split
    · rename_i hb; simp [Memory.read, hb]
    · simp [Memory.read]
  | cons c m ih =>
    obtain ⟨k, v⟩ := c
    have hc := (Memory.wf_cons _ _).1 h
    simp only [Memory.write, Memory.consCell]
    split
    · rename_i hak
      split
      · rename_i hb
        rw [hb]
        apply Memory.read_of_lt
        intro d hd
        rcases List.mem_cons.1 hd with rfl | hd
        · exact hak
        · exact lt_trans hak (hc.1 d hd)
      · simp [Memory.read]
    · split
      · rename_i hak
        split
        · rename_i hb
          rw [hb, Memory.read_of_lt fun d hd => hak ▸ hc.1 d hd]
        · simp [Memory.read]
      · rename_i h1 h2
        simp only [Memory.read]
        rw [if_neg (fun e => h2 e.symm), ih hc.2.2]

/-- A read of another address gives what it gave before. -/
theorem Memory.read_write_ne {m : Memory} {a a' : Nat} (b : Byte) (h : a' ≠ a) :
    (m.write a b).read a' = m.read a' := by
  have front : ∀ m : Memory, (Memory.consCell a b m).read a' = m.read a' := by
    intro m
    simp only [Memory.consCell]
    split
    · rfl
    · simp only [Memory.read]; rw [if_neg (fun e => h e.symm)]
  induction m with
  | nil => exact front []
  | cons c m ih =>
    obtain ⟨k, v⟩ := c
    simp only [Memory.write]
    split
    · exact front _
    · split
      · rename_i hak
        rw [front]
        simp only [Memory.read]
        rw [if_neg (by omega)]
      · simp only [Memory.read, ih]

/-! ## Words -/

/-- A word write keeps the canonical form. -/
theorem Memory.writeWord_wf {m : Memory} (o : ByteOrder) (k : Nat) (v : Word) (h : m.wf = true) :
    (m.writeWord o k v).wf = true := by
  unfold Memory.writeWord
  exact Memory.write_wf _ _ (Memory.write_wf _ _ (Memory.write_wf _ _ (Memory.write_wf _ _ h)))

/-- A word write at a word that exists keeps every listed address existing. -/
theorem Memory.writeWord_inRange {m : Memory} (o : ByteOrder) {k : Nat} (v : Word)
    (hk : 4 * k + 3 < memCapacity) (h : m.inRange = true) :
    (m.writeWord o k v).inRange = true := by
  unfold Memory.writeWord
  exact Memory.write_inRange _ (by omega) (Memory.write_inRange _ (by omega)
    (Memory.write_inRange _ (by omega) (Memory.write_inRange _ (by omega) h)))

/-- A byte outside the written word reads as before (R51). -/
theorem Memory.read_writeWord_ne {m : Memory} (o : ByteOrder) {k a : Nat} (v : Word)
    (h : a / 4 ≠ k) : (m.writeWord o k v).read a = m.read a := by
  unfold Memory.writeWord
  rw [Memory.read_write_ne _ (by omega), Memory.read_write_ne _ (by omega),
    Memory.read_write_ne _ (by omega), Memory.read_write_ne _ (by omega)]

/-- The bytes of the written word are the word's, in the machine's byte order (R52). -/
theorem Memory.read_writeWord_same {m : Memory} (o : ByteOrder) (k : Nat) {j : Nat} (v : Word)
    (hj : j < 4) (h : m.wf = true) : (m.writeWord o k v).read (4 * k + j) = byteAt o j v := by
  have h1 := Memory.write_wf (4 * k) (byteAt o 0 v) h
  have h2 := Memory.write_wf (4 * k + 1) (byteAt o 1 v) h1
  have h3 := Memory.write_wf (4 * k + 2) (byteAt o 2 v) h2
  unfold Memory.writeWord
  obtain rfl | rfl | rfl | rfl : j = 0 ∨ j = 1 ∨ j = 2 ∨ j = 3 := by omega
  · rw [Memory.read_write_ne _ (by omega), Memory.read_write_ne _ (by omega),
      Memory.read_write_ne _ (by omega)]
    exact Memory.read_write_same _ _ h
  · rw [Memory.read_write_ne _ (by omega), Memory.read_write_ne _ (by omega),
      Memory.read_write_same _ _ h1]
  · rw [Memory.read_write_ne _ (by omega), Memory.read_write_same _ _ h2]
  · exact Memory.read_write_same _ _ h3

/-- The four bytes of a word, put together again, are the word (R52). -/
theorem wordOfBytes_byteAt (o : ByteOrder) (v : Word) :
    wordOfBytes o (byteAt o 0 v) (byteAt o 1 v) (byteAt o 2 v) (byteAt o 3 v) = v := by
  have key : ∀ v : Word, (v.extractLsb' 24 8 ++ v.extractLsb' 16 8 ++ v.extractLsb' 8 8 ++
      v.extractLsb' 0 8 : BitVec 32) = v := by
    intro v
    apply BitVec.eq_of_getLsbD_eq
    intro i hi
    simp only [BitVec.getLsbD_append, BitVec.getLsbD_extractLsb']
    by_cases h1 : i < 8
    · simp [h1]
    · by_cases h2 : i - 8 < 8
      · have : 8 + (i - 8) = i := by omega
        simp [h1, h2, this]
      · by_cases h3 : i - 8 - 8 < 8
        · have : 16 + (i - 8 - 8) = i := by omega
          simp [h1, h2, h3, this]
        · have h4 : i - 8 - 8 - 8 < 8 := by omega
          have : 24 + (i - 8 - 8 - 8) = i := by omega
          simp [h1, h2, h3, h4, this]
  cases o <;> exact key v

/-- A read of the written word gives the written word (R51). -/
theorem Memory.readWord_writeWord_same {m : Memory} (o : ByteOrder) (k : Nat) (v : Word)
    (h : m.wf = true) : (m.writeWord o k v).readWord o k = v := by
  have rd := fun j hj => Memory.read_writeWord_same (j := j) o k v hj h
  unfold Memory.readWord
  rw [rd 1 (by omega), rd 2 (by omega), rd 3 (by omega)]
  have h0 := rd 0 (by omega)
  rw [Nat.add_zero] at h0
  rw [h0, wordOfBytes_byteAt]

/-- A read of another word gives what it gave before (R51). -/
theorem Memory.readWord_writeWord_ne {m : Memory} (o : ByteOrder) {k k' : Nat} (v : Word)
    (h : k' ≠ k) : (m.writeWord o k v).readWord o k' = m.readWord o k' := by
  unfold Memory.readWord
  rw [Memory.read_writeWord_ne _ _ (by omega), Memory.read_writeWord_ne _ _ (by omega),
    Memory.read_writeWord_ne _ _ (by omega), Memory.read_writeWord_ne _ _ (by omega)]

end Sys2Proof.Machine
end

