-- ==== Sys2Proof/Laws/Ops.lean ====
section
/-! SUPPORT. For each shared operation, one lemma that says everything it does, in the terms of
Safety.lean; the instructions' lemmas cite these instead of unfolding the operations. -/

namespace Sys2Proof.Machine

variable {s t : State}

/-! ## Registers -/

@[simp] theorem State.x_zero : s.x 0 = 0 := rfl

theorem State.x_of_ne {i : RegIx} (h : i ≠ zeroReg) : s.x i = s.slot i := by
  simp only [State.x, h, if_false]

/-- A read of `x[r]` after `x[i] <- v` (R22). -/
theorem State.setX_x (i r : RegIx) (v : Word) :
    (s.setX i v).x r = if r = i ∧ r ≠ zeroReg then v else s.x r := by
  by_cases hr : r = zeroReg
  · subst hr; simp [State.x]
  · rw [State.x_of_ne hr, State.setX_slot, State.x_of_ne hr]

theorem keepsHiLo_refl : KeepsHiLo s s := ⟨rfl, rfl⟩
theorem keepsMem_refl : KeepsMem s s := fun _ => rfl
theorem keepsMode_refl : KeepsMode s s := ⟨rfl, rfl⟩
theorem keepsHost_refl : KeepsHost s s := ⟨rfl, rfl⟩
theorem keepsRegsBut_refl (l : List RegIx) : KeepsRegsBut s s l := fun _ _ => rfl

/-- What `x[rd] <- v` does. -/
theorem writesReg_setX (rd : RegIx) (v : Word) : WritesReg s (s.setX rd v) rd v :=
  ⟨fun i => by rw [State.setX_slot], ⟨by simp, by simp⟩, by simp, fun a => by simp, by simp,
    ⟨by simp, by simp⟩, ⟨by simp, by simp⟩⟩

/-- What `HI <- hi; LO <- lo` does. -/
theorem writesHiLo_setHiLo (hi lo : Word) : WritesHiLo s (s.setHiLo hi lo) hi lo :=
  ⟨rfl, rfl, fun _ _ => rfl, rfl, fun _ => rfl, rfl, ⟨rfl, rfl⟩, ⟨rfl, rfl⟩⟩

/-- What `pc <- p` does. -/
theorem writesPc_setPc (p : Word) : WritesPc s (s.setPc p) p :=
  ⟨rfl, fun _ _ => rfl, ⟨rfl, rfl⟩, fun _ => rfl, rfl, ⟨rfl, rfl⟩, ⟨rfl, rfl⟩⟩

/-- What a conditional branch does. -/
theorem writesPc_branchIf (b : Bool) (imm : BitVec 16) :
    WritesPc s (s.branchIf b imm) (if b then branchTarget s.pc imm else s.pc) := by
  cases b
  · exact ⟨rfl, fun _ _ => rfl, ⟨rfl, rfl⟩, fun _ => rfl, rfl, ⟨rfl, rfl⟩, ⟨rfl, rfl⟩⟩
  · exact writesPc_setPc _

/-- What `x[31] <- link; pc <- target` does. -/
theorem links_setX_setPc (link target : Word) :
    Links s ((s.setX linkReg link).setPc target) link target := by
  refine ⟨fun i => ?_, rfl, ⟨by simp, by simp⟩, fun a => by simp, by simp, ⟨by simp, by simp⟩,
    ⟨by simp, by simp⟩⟩
  rw [State.setPc_slot, State.setX_slot]
  have h31 : linkReg ≠ zeroReg := by decide
  by_cases h : i = linkReg
  · simp [h, h31]
  · simp [h]

/-! ## Faults -/

/-- What `raise F(info)` at an address does (R257). -/
theorem faults_raiseAt (c : Cause) (p : Word) : Faults s (s.raiseAt c p) c p :=
  ⟨rfl, rfl, fun _ _ => rfl, ⟨rfl, rfl⟩, rfl, fun _ => rfl, ⟨rfl, rfl⟩, rfl⟩

/-- A fault in dispatch is a next state (log 1). -/
theorem takeFault_eq (c : Cause) : s.takeFault c = .next (s.raiseAt c (s.pc - 4)) := rfl

/-! ## Memory primitives -/

theorem State.memRead8_of_lt {a : Word} (h : u32 a < memCapacity) :
    s.memRead8 a = some (s.mem.read (u32 a)) := if_pos h

theorem State.memRead8_of_ge {a : Word} (h : memCapacity ≤ u32 a) : s.memRead8 a = none :=
  if_neg (Nat.not_lt.2 h)

theorem State.memRead32_of_lt {a : Word} (h : u32 a < memCapacity) :
    s.memRead32 a = some (s.mem.readWord s.cfg.byteOrder (u32 a / 4)) := if_pos h

theorem State.memRead32_of_ge {a : Word} (h : memCapacity ≤ u32 a) : s.memRead32 a = none :=
  if_neg (Nat.not_lt.2 h)

theorem State.memWrite8_of_lt {a : Word} (b : Byte) (h : u32 a < memCapacity) :
    s.memWrite8 a b = some { s with mem := s.mem.write (u32 a) b } := if_pos h

theorem State.memWrite8_of_ge {a : Word} (b : Byte) (h : memCapacity ≤ u32 a) :
    s.memWrite8 a b = none := if_neg (Nat.not_lt.2 h)

theorem State.memWrite32_of_lt {a : Word} (v : Word) (h : u32 a < memCapacity) :
    s.memWrite32 a v = some { s with mem := s.mem.writeWord s.cfg.byteOrder (u32 a / 4) v } :=
  if_pos h

theorem State.memWrite32_of_ge {a : Word} (v : Word) (h : memCapacity ≤ u32 a) :
    s.memWrite32 a v = none := if_neg (Nat.not_lt.2 h)

/-- Every memory operation of the state keeps the canonical form and the range. -/
theorem State.memWrite8_keeps {a : Word} {b : Byte} (h : s.memWrite8 a b = some t)
    (hw : s.mem.wf = true) (hr : s.mem.inRange = true) :
    t.mem.wf = true ∧ t.mem.inRange = true := by
  unfold State.memWrite8 at h
  split at h
  · rename_i ha
    cases h
    exact ⟨Memory.write_wf _ _ hw, Memory.write_inRange _ ha hr⟩
  · cases h

theorem State.memWrite32_keeps {a v : Word} (h : s.memWrite32 a v = some t)
    (hw : s.mem.wf = true) (hr : s.mem.inRange = true) :
    t.mem.wf = true ∧ t.mem.inRange = true := by
  unfold State.memWrite32 at h
  split at h
  · rename_i ha
    cases h
    refine ⟨Memory.writeWord_wf _ _ _ hw, Memory.writeWord_inRange _ _ ?_ hr⟩
    simp only [memCapacity] at ha ⊢
    omega
  · cases h

/-- A state that differs in memory alone. -/
theorem writesMemOnly_mem (m : Memory) : WritesMemOnly s { s with mem := m } :=
  ⟨fun _ _ => rfl, ⟨rfl, rfl⟩, rfl, rfl, ⟨rfl, rfl⟩, ⟨rfl, rfl⟩⟩

/-! ## Services -/

theorem exits_serviceExit : Exits s (serviceExit s) :=
  ⟨rfl, rfl, fun _ _ => rfl, ⟨rfl, rfl⟩, rfl, fun _ => rfl, ⟨rfl, rfl⟩, rfl⟩

theorem setsTrace_serviceStartTracing : SetsTrace s (serviceStartTracing s) true :=
  ⟨rfl, fun _ _ => rfl, ⟨rfl, rfl⟩, rfl, fun _ => rfl, rfl, rfl, ⟨rfl, rfl⟩⟩

theorem setsTrace_serviceStopTracing : SetsTrace s (serviceStopTracing s) false :=
  ⟨rfl, fun _ _ => rfl, ⟨rfl, rfl⟩, rfl, fun _ => rfl, rfl, rfl, ⟨rfl, rfl⟩⟩

theorem sends_send (e : HostEvent) : Sends s (s.send e) [e] :=
  ⟨rfl, fun _ _ => rfl, ⟨rfl, rfl⟩, rfl, fun _ => rfl, rfl, ⟨rfl, rfl⟩, rfl⟩

/-- Sending the host something and putting its answer in the result register. -/
theorem asks_send_setX (e : HostEvent) (v : Word) :
    Asks s (((s.send e).setX resultReg v).drawn) e v := by
  refine ⟨fun i => ?_, by simp, by simp, ⟨by simp, by simp⟩, by simp, fun a => by simp, by simp,
    ⟨by simp, by simp⟩⟩
  rw [State.drawn_slot, State.setX_slot]
  have h2 : resultReg ≠ zeroReg := by decide
  by_cases h : i = resultReg
  · simp [h, h2]
  · simp [h]

theorem asks_servicePrintChar :
    Asks s (servicePrintChar s) (.printChar (lowByte (s.x argReg)))
      (Config.freePrintCharResult s.hostDraws) := asks_send_setX _ _

/-! ## The string of `print_str` (R163) -/

/-- The scan sees nothing of the state but memory. -/
theorem stringFrom_congr {s t : State} (h : s.mem = t.mem) (fuel : Nat) (a : Word) :
    stringFrom s fuel a = stringFrom t fuel a := by
  induction fuel generalizing a with
  | zero => rfl
  | succ n ih => simp only [stringFrom, State.memRead8, h, ih]

/-- The successor of an address inside memory. -/
theorem u32_add_one {a : Word} (h : u32 a < memCapacity) : u32 (a + 1) = u32 a + 1 := by
  simp only [u32, memCapacity] at *
  rw [BitVec.toNat_add]
  simp
  omega

/-- A string of `n` bytes with its NUL inside memory is read whole. -/
theorem stringFrom_ok (n : Nat) {fuel : Nat} {a : Word} (hf : n < fuel)
    (hn : u32 a + n < memCapacity) (hz : ∀ k < n, s.mem.read (u32 a + k) ≠ 0)
    (h0 : s.mem.read (u32 a + n) = 0) :
    stringFrom s fuel a = .ok ((List.range n).map fun k => s.mem.read (u32 a + k)) := by
  induction n generalizing fuel a with
  | zero =>
    obtain ⟨f, rfl⟩ : ∃ f, fuel = f + 1 := ⟨fuel - 1, by omega⟩
    simp only [stringFrom, State.memRead8_of_lt (s := s) (a := a) (by omega)]
    rw [Nat.add_zero] at h0
    simp [h0]
  | succ n ih =>
    obtain ⟨f, rfl⟩ : ∃ f, fuel = f + 1 := ⟨fuel - 1, by omega⟩
    have ha : u32 a < memCapacity := by omega
    have ha1 := u32_add_one ha
    have hb : s.mem.read (u32 a) ≠ 0 := by simpa using hz 0 (by omega)
    have shift : ∀ k, u32 (a + 1) + k = u32 a + (k + 1) := fun k => by rw [ha1]; omega
    have ih' := ih (fuel := f) (a := a + 1) (by omega) (by rw [shift]; omega)
      (fun k hk => by rw [shift]; exact hz (k + 1) (by omega)) (by rw [shift]; exact h0)
    simp only [stringFrom, State.memRead8_of_lt ha, hb, if_false, ih', List.range_succ_eq_map,
      List.map_cons, List.map_map, Nat.add_zero]
    congr 2
    exact List.map_congr_left fun k _ => by simp only [shift, Function.comp]

/-- A string that runs past memory stops at the first address that does not exist. -/
theorem stringFrom_error (n : Nat) {fuel : Nat} {a : Word} (hf : n < fuel)
    (hn : u32 a + n = memCapacity) (hz : ∀ k < n, s.mem.read (u32 a + k) ≠ 0) :
    stringFrom s fuel a = .error 65532 := by
  induction n generalizing fuel a with
  | zero =>
    obtain ⟨f, rfl⟩ : ∃ f, fuel = f + 1 := ⟨fuel - 1, by omega⟩
    have ha : a = 65532 := BitVec.eq_of_toNat_eq (by simpa using hn)
    have hm : s.memRead8 65532 = none := State.memRead8_of_ge (by decide)
    simp only [stringFrom, ha, hm]
  | succ n ih =>
    obtain ⟨f, rfl⟩ : ∃ f, fuel = f + 1 := ⟨fuel - 1, by omega⟩
    have ha : u32 a < memCapacity := by omega
    have ha1 := u32_add_one ha
    have hb : s.mem.read (u32 a) ≠ 0 := by simpa using hz 0 (by omega)
    have shift : ∀ k, u32 (a + 1) + k = u32 a + (k + 1) := fun k => by rw [ha1]; omega
    have ih' := ih (fuel := f) (a := a + 1) (by omega) (by rw [shift]; omega)
      (fun k hk => by rw [shift]; exact hz (k + 1) (by omega))
    simp only [stringFrom, State.memRead8_of_lt ha, hb, if_false, ih']

end Sys2Proof.Machine
end

