-- ==== Sys2Proof/Laws/Exec.lean ====
section
/-! SUPPORT. Said once: what a step is, and everything an instruction can do when exec answers a next
state (spec/40_execution_cycle.md R111, R113). Invariants are proved from `exec_effect` by cases, with
no meaning unfolded again. -/

namespace Sys2Proof.Machine

variable {s t : State} {i : Instr}

/-- A step whose invariant check passes dispatches the fetched word. -/
theorem step_of_ready (hr : s.run = .running) (hc : s.checkInvariants = none) :
    step s = dispatchWith exec s.begun (decode s.cfg.maps s.fetchWord) := by
  simp [step, stepWith, hr, hc]

/-- A step whose invariant check fails is the fault entry and nothing else. -/
theorem step_of_violation {kind : InvariantKind} (hr : s.run = .running)
    (hc : s.checkInvariants = some kind) :
    step s = .next (s.raiseAt (.invariantViolation kind) s.pc) := by
  simp [step, stepWith, hr, hc]

/-- Only a running machine answers a next state. -/
theorem running_of_step (h : step s = .next t) : s.run = .running := by
  unfold step stepWith at h
  split at h <;> simp_all

/-- A fault raised by dispatch records the address of the instruction. -/
theorem takeFault_begun (c : Cause) :
    s.begun.takeFault c = .next (s.begun.raiseAt c s.pc) := by
  simp [State.takeFault]

/-- What instruction `i` can do to `s` when it answers a next state: one constructor per kind of
effect. -/
inductive Effect (s : State) (i : Instr) : State → Prop
  | nothing : Effect s i s
  | register (rd : RegIx) (v : Word) : rd ∈ writtenRegs s.cfg i → Effect s i (s.setX rd v)
  | hiLo (hi lo : Word) : usesHiLo i → Effect s i (s.setHiLo hi lo)
  | jump (p : Word) : Effect s i (s.setPc p)
  | link (addr : BitVec 26) (v p : Word) : i = .jal addr →
      Effect s i ((s.setX linkReg v).setPc p)
  | storeByte (a : Word) (b : Byte) : isStore i → u32 a < memCapacity →
      Effect s i { s with mem := s.mem.write (u32 a) b }
  | storeWord (a v : Word) : isStore i → u32 a < memCapacity →
      Effect s i { s with mem := s.mem.writeWord s.cfg.byteOrder (u32 a / 4) v }
  | fault (c : Cause) : mayRaise s.cfg i c → Effect s i (s.raiseAt c s.instrAddr)
  | exit : Effect s i (serviceExit s)
  | printStr (bs : List Byte) : i = .printStr ∨ i = .syscall s.cfg.maps.sys.printStr →
      Effect s i (printStrResult (s.send (.printStr bs)))
  | printChar : i = .printChar ∨ i = .syscall s.cfg.maps.sys.printChar →
      Effect s i (servicePrintChar s)
  | readChar : i = .readChar ∨ i = .syscall s.cfg.maps.sys.readChar →
      Effect s i ((s.send .readChar).setX resultReg (Config.freeReadCharValue s.hostDraws)).drawn
  | trace (b : Bool) : setsTrace s.cfg i → Effect s i { s with trace := b }

theorem servicePrintStr_effect (hi : i = .printStr ∨ i = .syscall s.cfg.maps.sys.printStr)
    (h : servicePrintStr s = .next t) : Effect s i t := by
  unfold servicePrintStr at h
  split at h <;> cases h
  · exact .fault _ (.inr hi)
  · exact .printStr _ hi

theorem serviceReadChar_effect (hi : i = .readChar ∨ i = .syscall s.cfg.maps.sys.readChar)
    (h : serviceReadChar s = .next t) : Effect s i t := by
  unfold serviceReadChar at h
  split at h <;> cases h
  exact .readChar hi

theorem loadInto_effect {rt : RegIx} {ea : Word} {v : Option Word}
    (hw : rt ∈ writtenRegs s.cfg i) (hf : mayRaise s.cfg i (.memoryOutOfRange ea))
    (h : s.loadInto rt ea v = .next t) : Effect s i t := by
  cases v <;> cases h
  · exact .fault _ hf
  · exact .register _ _ hw

theorem storeOr_memWrite8_effect {ea : Word} {b : Byte} (hs : isStore i)
    (hf : mayRaise s.cfg i (.memoryOutOfRange ea))
    (h : s.storeOr ea (s.memWrite8 ea b) = .next t) : Effect s i t := by
  unfold State.memWrite8 at h
  split at h <;> cases h
  · exact .storeByte _ _ hs ‹_›
  · exact .fault _ hf

theorem storeOr_memWrite32_effect {ea v : Word} (hs : isStore i)
    (hf : mayRaise s.cfg i (.memoryOutOfRange ea))
    (h : s.storeOr ea (s.memWrite32 ea v) = .next t) : Effect s i t := by
  unfold State.memWrite32 at h
  split at h <;> cases h
  · exact .storeWord _ _ hs ‹_›
  · exact .fault _ hf

theorem branchIf_effect {b : Bool} {imm : BitVec 16}
    (h : Host.Outcome.next (s.branchIf b imm) = (.next t : Result)) : Effect s i t := by
  cases h
  cases b
  · exact .nothing
  · exact .jump _

/-- Everything an instruction can do. -/
theorem exec_effect (h : exec i s = .next t) : Effect s i t := by
  cases i
  case printStr => exact servicePrintStr_effect (.inl rfl) h
  case readChar => exact serviceReadChar_effect (.inl rfl) h
  case printChar => cases h; exact .printChar (.inl rfl)
  case exit => cases h; exact .exit
  case startTracing => cases h; exact .trace _ trivial
  case stopTracing => cases h; exact .trace _ trivial
  case syscall code =>
    simp only [exec, execSyscall] at h
    split at h
    · cases h; exact .exit
    split at h
    · exact servicePrintStr_effect (.inr (by simp_all)) h
    split at h
    · cases h; exact .printChar (.inr (by simp_all))
    split at h
    · exact serviceReadChar_effect (.inr (by simp_all)) h
    split at h
    · cases h; exact .trace _ (.inl ‹_›)
    split at h
    · cases h; exact .trace _ (.inr ‹_›)
    · cases h; exact .fault _ ⟨rfl, by simp_all [SyscallMap.values]⟩
  case div rs rt =>
    simp only [exec, execDiv] at h
    split at h
    · cases h; exact .fault _ ⟨_, _, rfl⟩
    split at h
    · split at h <;> cases h
      · exact .fault _ ⟨_, _, rfl⟩
      · exact .hiLo _ _ trivial
    · cases h; exact .hiLo _ _ trivial
  case mul => cases h; exact .hiLo _ _ trivial
  case jal => cases h; exact .link _ _ _ rfl
  case j => cases h; exact .jump _
  case jr => cases h; exact .jump _
  case lbu => exact loadInto_effect (by simp [writtenRegs]) (.inl ⟨_, _, _, .inl rfl⟩) h
  case lw => exact loadInto_effect (by simp [writtenRegs]) (.inl ⟨_, _, _, .inr (.inl rfl)⟩) h
  case sb =>
    exact storeOr_memWrite8_effect trivial (.inl ⟨_, _, _, .inr (.inr (.inl rfl))⟩) h
  case sw =>
    exact storeOr_memWrite32_effect trivial (.inl ⟨_, _, _, .inr (.inr (.inr rfl))⟩) h
  case beq => exact branchIf_effect h
  case bne => exact branchIf_effect h
  case bgez => exact branchIf_effect h
  case bgtz => exact branchIf_effect h
  case blez => exact branchIf_effect h
  case bltz => exact branchIf_effect h
  all_goals cases h; exact .register _ _ (by simp [writtenRegs])

end Sys2Proof.Machine
end

