-- ==== Sys2Proof/Laws/PerInstr.lean ====
section
/-! SUPPORT. Statements made per instruction. `Selector`: the codes of an instruction's encoding are the
ones the encoding tables give it (spec/30_encoding.md R81, R85, R86). -/

open Sys2Proof

/-- The opcode of the instruction's row (R85; 0 is `OP_REG`). -/
def Sys2Proof.Laws.Selector.opcode (m : Maps) : Instr → BitVec 6
  | .add _ _ _ => 0
  | .sub _ _ _ => 0
  | .mul _ _ => 0
  | .div _ _ => 0
  | .mfhi _ => 0
  | .mflo _ => 0
  | .and _ _ _ => 0
  | .or _ _ _ => 0
  | .nor _ _ _ => 0
  | .xor _ _ _ => 0
  | .sll _ _ _ => 0
  | .srl _ _ _ => 0
  | .jr _ => 0
  | .syscall _ => 0
  | .addi _ _ _ => m.op.addi
  | .andi _ _ _ => m.op.andi
  | .ori _ _ _ => m.op.ori
  | .xori _ _ _ => m.op.xori
  | .beq _ _ _ => m.op.beq
  | .bne _ _ _ => m.op.bne
  | .bgez _ _ => m.op.bgez
  | .bgtz _ _ => m.op.bgtz
  | .blez _ _ => m.op.blez
  | .bltz _ _ => m.op.bltz
  | .lbu _ _ _ => m.op.lbu
  | .lw _ _ _ => m.op.lw
  | .sb _ _ _ => m.op.sb
  | .sw _ _ _ => m.op.sw
  | .j _ => m.op.j
  | .jal _ => m.op.jal
  | .exit => 0
  | .printStr => 0
  | .printChar => 0
  | .readChar => 0
  | .startTracing => 0
  | .stopTracing => 0

/-- The function code of the instruction's row, for the R form (R86). -/
def Sys2Proof.Laws.Selector.funct (m : Maps) : Instr → Option (BitVec 6)
  | .add _ _ _ => some m.funct.add
  | .sub _ _ _ => some m.funct.sub
  | .mul _ _ => some m.funct.mul
  | .div _ _ => some m.funct.div
  | .mfhi _ => some m.funct.mfhi
  | .mflo _ => some m.funct.mflo
  | .and _ _ _ => some m.funct.and
  | .or _ _ _ => some m.funct.or
  | .nor _ _ _ => some m.funct.nor
  | .xor _ _ _ => some m.funct.xor
  | .sll _ _ _ => some m.funct.sll
  | .srl _ _ _ => some m.funct.srl
  | .jr _ => some m.funct.jr
  | .syscall _ => some m.funct.syscall
  | .addi _ _ _ => none
  | .andi _ _ _ => none
  | .ori _ _ _ => none
  | .xori _ _ _ => none
  | .beq _ _ _ => none
  | .bne _ _ _ => none
  | .bgez _ _ => none
  | .bgtz _ _ => none
  | .blez _ _ => none
  | .bltz _ _ => none
  | .lbu _ _ _ => none
  | .lw _ _ _ => none
  | .sb _ _ _ => none
  | .sw _ _ _ => none
  | .j _ => none
  | .jal _ => none
  | .exit => some m.funct.syscall
  | .printStr => some m.funct.syscall
  | .printChar => some m.funct.syscall
  | .readChar => some m.funct.syscall
  | .startTracing => some m.funct.syscall
  | .stopTracing => some m.funct.syscall

/-- The codes of the encoding are the table's. -/
def Sys2Proof.Laws.Selector.Statement (i : Instr) : Prop :=
  ∀ m : Maps, opOf (encode m i) = Sys2Proof.Laws.Selector.opcode m i ∧
    ∀ f, Sys2Proof.Laws.Selector.funct m i = some f → functOf (encode m i) = f

/-- The R form. -/
theorem Sys2Proof.Laws.Selector.of_wordR {rs rt rd : RegIx} {n : ShiftCount} {g f : BitVec 6}
    (h : some g = some f) :
    functOf (wordR rs rt rd n g) = f := by
  cases h; exact functOf_wordR ..

/-- The syscall form. -/
theorem Sys2Proof.Laws.Selector.of_wordSyscall {m : Maps} {code : BitVec 20} {f : BitVec 6}
    (h : some m.funct.syscall = some f) : functOf (wordSyscall m code) = f := by
  cases h; exact functOf_wordSyscall ..

theorem Sys2Proof.Laws.Selector.add (rd rs rt : RegIx) :
    Sys2Proof.Laws.Selector.Statement (.add rd rs rt) :=
  fun _ => ⟨opOf_wordR .., fun _ h => Sys2Proof.Laws.Selector.of_wordR h⟩

theorem Sys2Proof.Laws.Selector.sub (rd rs rt : RegIx) :
    Sys2Proof.Laws.Selector.Statement (.sub rd rs rt) :=
  fun _ => ⟨opOf_wordR .., fun _ h => Sys2Proof.Laws.Selector.of_wordR h⟩

theorem Sys2Proof.Laws.Selector.mul (rs rt : RegIx) :
    Sys2Proof.Laws.Selector.Statement (.mul rs rt) :=
  fun _ => ⟨opOf_wordR .., fun _ h => Sys2Proof.Laws.Selector.of_wordR h⟩

theorem Sys2Proof.Laws.Selector.div (rs rt : RegIx) :
    Sys2Proof.Laws.Selector.Statement (.div rs rt) :=
  fun _ => ⟨opOf_wordR .., fun _ h => Sys2Proof.Laws.Selector.of_wordR h⟩

theorem Sys2Proof.Laws.Selector.mfhi (rd : RegIx) :
    Sys2Proof.Laws.Selector.Statement (.mfhi rd) :=
  fun _ => ⟨opOf_wordR .., fun _ h => Sys2Proof.Laws.Selector.of_wordR h⟩

theorem Sys2Proof.Laws.Selector.mflo (rd : RegIx) :
    Sys2Proof.Laws.Selector.Statement (.mflo rd) :=
  fun _ => ⟨opOf_wordR .., fun _ h => Sys2Proof.Laws.Selector.of_wordR h⟩

theorem Sys2Proof.Laws.Selector.and (rd rs rt : RegIx) :
    Sys2Proof.Laws.Selector.Statement (.and rd rs rt) :=
  fun _ => ⟨opOf_wordR .., fun _ h => Sys2Proof.Laws.Selector.of_wordR h⟩

theorem Sys2Proof.Laws.Selector.or (rd rs rt : RegIx) :
    Sys2Proof.Laws.Selector.Statement (.or rd rs rt) :=
  fun _ => ⟨opOf_wordR .., fun _ h => Sys2Proof.Laws.Selector.of_wordR h⟩

theorem Sys2Proof.Laws.Selector.nor (rd rs rt : RegIx) :
    Sys2Proof.Laws.Selector.Statement (.nor rd rs rt) :=
  fun _ => ⟨opOf_wordR .., fun _ h => Sys2Proof.Laws.Selector.of_wordR h⟩

theorem Sys2Proof.Laws.Selector.xor (rd rs rt : RegIx) :
    Sys2Proof.Laws.Selector.Statement (.xor rd rs rt) :=
  fun _ => ⟨opOf_wordR .., fun _ h => Sys2Proof.Laws.Selector.of_wordR h⟩

theorem Sys2Proof.Laws.Selector.sll (rd rt : RegIx) (shamt : ShiftCount) :
    Sys2Proof.Laws.Selector.Statement (.sll rd rt shamt) :=
  fun _ => ⟨opOf_wordR .., fun _ h => Sys2Proof.Laws.Selector.of_wordR h⟩

theorem Sys2Proof.Laws.Selector.srl (rd rt : RegIx) (shamt : ShiftCount) :
    Sys2Proof.Laws.Selector.Statement (.srl rd rt shamt) :=
  fun _ => ⟨opOf_wordR .., fun _ h => Sys2Proof.Laws.Selector.of_wordR h⟩

theorem Sys2Proof.Laws.Selector.jr (rs : RegIx) :
    Sys2Proof.Laws.Selector.Statement (.jr rs) :=
  fun _ => ⟨opOf_wordR .., fun _ h => Sys2Proof.Laws.Selector.of_wordR h⟩

theorem Sys2Proof.Laws.Selector.syscall (code : BitVec 20) :
    Sys2Proof.Laws.Selector.Statement (.syscall code) :=
  fun _ => ⟨opOf_wordSyscall .., fun _ h => Sys2Proof.Laws.Selector.of_wordSyscall h⟩

theorem Sys2Proof.Laws.Selector.addi (rt rs : RegIx) (imm : BitVec 16) :
    Sys2Proof.Laws.Selector.Statement (.addi rt rs imm) :=
  fun _ => ⟨opOf_wordI .., fun _ h => nomatch h⟩

theorem Sys2Proof.Laws.Selector.andi (rt rs : RegIx) (imm : BitVec 16) :
    Sys2Proof.Laws.Selector.Statement (.andi rt rs imm) :=
  fun _ => ⟨opOf_wordI .., fun _ h => nomatch h⟩

theorem Sys2Proof.Laws.Selector.ori (rt rs : RegIx) (imm : BitVec 16) :
    Sys2Proof.Laws.Selector.Statement (.ori rt rs imm) :=
  fun _ => ⟨opOf_wordI .., fun _ h => nomatch h⟩

theorem Sys2Proof.Laws.Selector.xori (rt rs : RegIx) (imm : BitVec 16) :
    Sys2Proof.Laws.Selector.Statement (.xori rt rs imm) :=
  fun _ => ⟨opOf_wordI .., fun _ h => nomatch h⟩

theorem Sys2Proof.Laws.Selector.beq (rs rt : RegIx) (imm : BitVec 16) :
    Sys2Proof.Laws.Selector.Statement (.beq rs rt imm) :=
  fun _ => ⟨opOf_wordI .., fun _ h => nomatch h⟩

theorem Sys2Proof.Laws.Selector.bne (rs rt : RegIx) (imm : BitVec 16) :
    Sys2Proof.Laws.Selector.Statement (.bne rs rt imm) :=
  fun _ => ⟨opOf_wordI .., fun _ h => nomatch h⟩

theorem Sys2Proof.Laws.Selector.bgez (rs : RegIx) (imm : BitVec 16) :
    Sys2Proof.Laws.Selector.Statement (.bgez rs imm) :=
  fun _ => ⟨opOf_wordI .., fun _ h => nomatch h⟩

theorem Sys2Proof.Laws.Selector.bgtz (rs : RegIx) (imm : BitVec 16) :
    Sys2Proof.Laws.Selector.Statement (.bgtz rs imm) :=
  fun _ => ⟨opOf_wordI .., fun _ h => nomatch h⟩

theorem Sys2Proof.Laws.Selector.blez (rs : RegIx) (imm : BitVec 16) :
    Sys2Proof.Laws.Selector.Statement (.blez rs imm) :=
  fun _ => ⟨opOf_wordI .., fun _ h => nomatch h⟩

theorem Sys2Proof.Laws.Selector.bltz (rs : RegIx) (imm : BitVec 16) :
    Sys2Proof.Laws.Selector.Statement (.bltz rs imm) :=
  fun _ => ⟨opOf_wordI .., fun _ h => nomatch h⟩

theorem Sys2Proof.Laws.Selector.lbu (rt rs : RegIx) (imm : BitVec 16) :
    Sys2Proof.Laws.Selector.Statement (.lbu rt rs imm) :=
  fun _ => ⟨opOf_wordI .., fun _ h => nomatch h⟩

theorem Sys2Proof.Laws.Selector.lw (rt rs : RegIx) (imm : BitVec 16) :
    Sys2Proof.Laws.Selector.Statement (.lw rt rs imm) :=
  fun _ => ⟨opOf_wordI .., fun _ h => nomatch h⟩

theorem Sys2Proof.Laws.Selector.sb (rt rs : RegIx) (imm : BitVec 16) :
    Sys2Proof.Laws.Selector.Statement (.sb rt rs imm) :=
  fun _ => ⟨opOf_wordI .., fun _ h => nomatch h⟩

theorem Sys2Proof.Laws.Selector.sw (rt rs : RegIx) (imm : BitVec 16) :
    Sys2Proof.Laws.Selector.Statement (.sw rt rs imm) :=
  fun _ => ⟨opOf_wordI .., fun _ h => nomatch h⟩

theorem Sys2Proof.Laws.Selector.j (addr : BitVec 26) :
    Sys2Proof.Laws.Selector.Statement (.j addr) :=
  fun _ => ⟨opOf_wordJ .., fun _ h => nomatch h⟩

theorem Sys2Proof.Laws.Selector.jal (addr : BitVec 26) :
    Sys2Proof.Laws.Selector.Statement (.jal addr) :=
  fun _ => ⟨opOf_wordJ .., fun _ h => nomatch h⟩

theorem Sys2Proof.Laws.Selector.exit :
    Sys2Proof.Laws.Selector.Statement .exit :=
  fun _ => ⟨opOf_wordSyscall .., fun _ h => Sys2Proof.Laws.Selector.of_wordSyscall h⟩

theorem Sys2Proof.Laws.Selector.printStr :
    Sys2Proof.Laws.Selector.Statement .printStr :=
  fun _ => ⟨opOf_wordSyscall .., fun _ h => Sys2Proof.Laws.Selector.of_wordSyscall h⟩

theorem Sys2Proof.Laws.Selector.printChar :
    Sys2Proof.Laws.Selector.Statement .printChar :=
  fun _ => ⟨opOf_wordSyscall .., fun _ h => Sys2Proof.Laws.Selector.of_wordSyscall h⟩

theorem Sys2Proof.Laws.Selector.readChar :
    Sys2Proof.Laws.Selector.Statement .readChar :=
  fun _ => ⟨opOf_wordSyscall .., fun _ h => Sys2Proof.Laws.Selector.of_wordSyscall h⟩

theorem Sys2Proof.Laws.Selector.startTracing :
    Sys2Proof.Laws.Selector.Statement .startTracing :=
  fun _ => ⟨opOf_wordSyscall .., fun _ h => Sys2Proof.Laws.Selector.of_wordSyscall h⟩

theorem Sys2Proof.Laws.Selector.stopTracing :
    Sys2Proof.Laws.Selector.Statement .stopTracing :=
  fun _ => ⟨opOf_wordSyscall .., fun _ h => Sys2Proof.Laws.Selector.of_wordSyscall h⟩
end

