-- ==== Sys2Proof/Tests/Slice0.lean ====
section
/-! SUPPORT. The model's own tests. Expected values come from spec/95_test_vectors.md (its L<n>.<n>.<n>
names stand in the comments) and from the encoding tables of spec/30_encoding.md; a witness theorem
shows that the hypotheses of the obligation it names can be met together, clause by clause. -/

namespace Sys2Proof.Tests

open Sys2Proof Sys2Proof.Machine

-- One theorem after another: many kernel evaluations at once exhaust the threads of a small machine.
set_option Elab.async false

/-! ## Helpers -/

/-- The base state of L2 (which State.reset is) with `pc = p` and the given registers. -/
def base (p : Word) (regs : List (RegIx × Word)) : State :=
  regs.foldl (fun s r => s.setX r.1 r.2) (State.reset.setPc p)

/-- The base state with the instruction word `w` stored at `p`. -/
def running (p w : Word) (regs : List (RegIx × Word)) : State := (base p regs).placeFetchWord w

/-- A state with the word `v` stored at the address `a`. -/
def holding (s : State) (a : Nat) (v : Word) : State :=
  { s with mem := s.mem.writeWord s.cfg.byteOrder (a / 4) v }

/-- What `f` says of the next state, where there is one. -/
def after {α : Type} (r : Result) (f : State → α) : Option α :=
  match r with
  | .next t => some (f t)
  | .fault _ => none
  | .refused _ => none

theorem next_of_after {α : Type} {r : Result} {f : State → α} {a : α} (h : after r f = some a) :
    ∃ t, r = .next t ∧ f t = a := by
  cases r with
  | next t => exact ⟨t, rfl, Option.some.inj h⟩
  | fault _ => cases h
  | refused _ => cases h

/-- The reason a step stops for, where it does. -/
def stopOf (r : Result) : Option Fault :=
  match r with
  | .next _ => none
  | .fault f => some f
  | .refused _ => none

theorem fault_of_stopOf {r : Result} {f : Fault} (h : stopOf r = some f) : r = .fault f := by
  cases r with
  | next _ => cases h
  | fault _ => exact congrArg _ (Option.some.inj h)
  | refused _ => cases h

/-- The base state with other parameters. -/
def withCfg (c : Config) (s : State) : State := { s with cfg := c }

/-! ## WellFormed: each check refuses an ill-formed term -/

theorem test_default_parameters_are_well_formed : Config.default.WellFormed := by decide

/-- Two opcodes alike (R88). -/
theorem test_repeated_opcode_is_refused :
    ¬ Maps.WellFormed { Maps.default with op := { OpcodeMap.default with jal := 2 } } := by decide

/-- An opcode that is `OP_REG` (R85, R88). -/
theorem test_zero_opcode_is_refused :
    ¬ Maps.WellFormed { Maps.default with op := { OpcodeMap.default with sw := 0 } } := by decide

/-- Two function codes alike (R88). -/
theorem test_repeated_function_code_is_refused :
    ¬ Maps.WellFormed { Maps.default with funct := { FunctMap.default with sub := 33 } } := by decide

/-- Two syscall codes alike (R88). -/
theorem test_repeated_syscall_code_is_refused :
    ¬ Maps.WellFormed { Maps.default with sys := { SyscallMap.default with readChar := 11 } } := by
  decide

/-- A fault status of 0 (R257). -/
theorem test_zero_fault_status_is_refused :
    ¬ Config.WellFormed { Config.default with exitStatusFault := 0 } := by decide

/-- A service's code is the service's own constructor (log 16); any other code is well formed. -/
theorem test_service_code_is_refused :
    Instr.WellFormed .default (.syscall 10) = false ∧ Instr.WellFormed .default (.syscall 0) = true := by
  decide

/-! ## Decoding: one word per constructor, written out field by field (R81, R85 to R87, R92) -/

theorem test_decode_register_alu :
    decode .default (0b000000#6 ++ 0b01000#5 ++ 0b01001#5 ++ 0b01010#5 ++ 0b00000#5 ++ 0b100001#6) =
      .instr (.add 10 8 9) ∧
    decode .default (0b000000#6 ++ 0b01000#5 ++ 0b01001#5 ++ 0b01010#5 ++ 0b00000#5 ++ 0b100011#6) =
      .instr (.sub 10 8 9) ∧
    decode .default (0b000000#6 ++ 0b01000#5 ++ 0b01001#5 ++ 0b00000#5 ++ 0b00000#5 ++ 0b011001#6) =
      .instr (.mul 8 9) ∧
    decode .default (0b000000#6 ++ 0b01000#5 ++ 0b01001#5 ++ 0b00000#5 ++ 0b00000#5 ++ 0b011011#6) =
      .instr (.div 8 9) ∧
    decode .default (0b000000#6 ++ 0b00000#5 ++ 0b00000#5 ++ 0b01010#5 ++ 0b00000#5 ++ 0b010000#6) =
      .instr (.mfhi 10) ∧
    decode .default (0b000000#6 ++ 0b00000#5 ++ 0b00000#5 ++ 0b01010#5 ++ 0b00000#5 ++ 0b010010#6) =
      .instr (.mflo 10) ∧
    decode .default (0b000000#6 ++ 0b01000#5 ++ 0b01001#5 ++ 0b01010#5 ++ 0b00000#5 ++ 0b100100#6) =
      .instr (.and 10 8 9) ∧
    decode .default (0b000000#6 ++ 0b01000#5 ++ 0b01001#5 ++ 0b01010#5 ++ 0b00000#5 ++ 0b100101#6) =
      .instr (.or 10 8 9) ∧
    decode .default (0b000000#6 ++ 0b01000#5 ++ 0b01001#5 ++ 0b01010#5 ++ 0b00000#5 ++ 0b100111#6) =
      .instr (.nor 10 8 9) ∧
    decode .default (0b000000#6 ++ 0b01000#5 ++ 0b01001#5 ++ 0b01010#5 ++ 0b00000#5 ++ 0b100110#6) =
      .instr (.xor 10 8 9) ∧
    decode .default (0b000000#6 ++ 0b00000#5 ++ 0b01001#5 ++ 0b01010#5 ++ 0b11111#5 ++ 0b000000#6) =
      .instr (.sll 10 9 31) ∧
    decode .default (0b000000#6 ++ 0b00000#5 ++ 0b01001#5 ++ 0b01010#5 ++ 0b00100#5 ++ 0b000011#6) =
      .instr (.srl 10 9 4) := by decide +kernel

theorem test_decode_register_control :
    decode .default (0b000000#6 ++ 0b11111#5 ++ 0b00000#5 ++ 0b00000#5 ++ 0b00000#5 ++ 0b001000#6) =
      .instr (.jr 31) ∧
    decode .default (0b000000#6 ++ 13#20 ++ 0b001100#6) = .instr (.syscall 13) ∧
    decode .default (0b000000#6 ++ 10#20 ++ 0b001100#6) = .instr .exit ∧
    decode .default (0b000000#6 ++ 4#20 ++ 0b001100#6) = .instr .printStr ∧
    decode .default (0b000000#6 ++ 11#20 ++ 0b001100#6) = .instr .printChar ∧
    decode .default (0b000000#6 ++ 12#20 ++ 0b001100#6) = .instr .readChar ∧
    decode .default (0b000000#6 ++ 2046#20 ++ 0b001100#6) = .instr .startTracing ∧
    decode .default (0b000000#6 ++ 2047#20 ++ 0b001100#6) = .instr .stopTracing := by decide +kernel

theorem test_decode_immediate :
    decode .default (0b001001#6 ++ 0b01000#5 ++ 0b01001#5 ++ 0xFFFF#16) = .instr (.addi 9 8 0xFFFF) ∧
    decode .default (0b001100#6 ++ 0b01000#5 ++ 0b01001#5 ++ 0x8000#16) = .instr (.andi 9 8 0x8000) ∧
    decode .default (0b001101#6 ++ 0b01000#5 ++ 0b01001#5 ++ 0xFFFF#16) = .instr (.ori 9 8 0xFFFF) ∧
    decode .default (0b001110#6 ++ 0b01000#5 ++ 0b01001#5 ++ 0x00FF#16) = .instr (.xori 9 8 0x00FF) ∧
    decode .default (0b000100#6 ++ 0b01000#5 ++ 0b01001#5 ++ 0x0003#16) = .instr (.beq 8 9 3) ∧
    decode .default (0b000101#6 ++ 0b01000#5 ++ 0b01001#5 ++ 0xFFFB#16) = .instr (.bne 8 9 0xFFFB) ∧
    decode .default (0b000001#6 ++ 0b01000#5 ++ 0b00000#5 ++ 0x0002#16) = .instr (.bgez 8 2) ∧
    decode .default (0b000111#6 ++ 0b01000#5 ++ 0b00000#5 ++ 0x0002#16) = .instr (.bgtz 8 2) ∧
    decode .default (0b000110#6 ++ 0b01000#5 ++ 0b00000#5 ++ 0x0002#16) = .instr (.blez 8 2) ∧
    decode .default (0b001000#6 ++ 0b01000#5 ++ 0b00000#5 ++ 0xFFFC#16) = .instr (.bltz 8 0xFFFC) ∧
    decode .default (0b100100#6 ++ 0b01000#5 ++ 0b01001#5 ++ 0x0001#16) = .instr (.lbu 9 8 1) ∧
    decode .default (0b100011#6 ++ 0b01000#5 ++ 0b01001#5 ++ 0xFFFC#16) = .instr (.lw 9 8 0xFFFC) ∧
    decode .default (0b101000#6 ++ 0b01000#5 ++ 0b01001#5 ++ 0x0001#16) = .instr (.sb 9 8 1) ∧
    decode .default (0b101011#6 ++ 0b01000#5 ++ 0b01001#5 ++ 0x0003#16) = .instr (.sw 9 8 3) := by
  decide +kernel

theorem test_decode_jump :
    decode .default (0b000010#6 ++ 0x3FFFFFF#26) = .instr (.j 0x3FFFFFF) ∧
    decode .default (0b000011#6 ++ 0x0000008#26) = .instr (.jal 8) := by decide +kernel

/-- L2.30.3, L2.30.23: the two default arms; L2.30.25: an ignored field. -/
theorem test_decode_unknown_and_ignored :
    decode .default 0x0000003F = .unknownFunctionCode 63 ∧
    decode .default 0xFC000000 = .unknownOpcode 63 ∧
    decode .default 0x01095161 = .instr (.add 10 8 9) := by decide +kernel

/-- L2.7, the counts: 14 I-form opcodes, 2 J-form opcodes and 14 function codes reach an instruction. -/
theorem test_decode_counts :
    ((List.range 64).filter fun op => decodeTableWord 32 (op * 67108864) != none).length = 17 ∧
    ((List.range 64).filter fun f => decodeTableWord 32 f != none).length = 14 := by decide +kernel

/-- A shorter row has zeros above it; a row wider than a word is no instruction of this machine. -/
theorem test_table_word :
    decodeTableWord 32 0x01095021 = some (.add 10 8 9) ∧
    decodeTableWord 8 0xFF8C = decodeTableWord 32 0x8C ∧ decodeTableWord 40 0x01095021 = none := by
  decide +kernel

/-- The word placed is the instruction the next step runs. -/
theorem test_withFetchWord :
    after (step (State.reset.withFetchWord 32 0x25090001)) (fun t => (t.x 9, t.pc)) =
      some (1, 4) := by decide +kernel

/-! ## Single steps -/

/-- L2.41.1. -/
theorem test_add_wraps :
    after (step (running 0x10 0x01095021 [(8, 0x7FFFFFFF), (9, 1)])) (fun t => (t.x 10, t.pc)) =
      some (0x80000000, 0x14) := by decide +kernel
/-- L2.41.5. -/
theorem test_add_to_register_zero :
    after (step (running 0x10 0x01090021 [(8, 5), (9, 6)])) (fun t => (t.x 0, t.slot 0)) =
      some (0, 0) := by decide +kernel
/-- L2.41.8. -/
theorem test_sub :
    after (step (running 0x10 0x01095023 [(9, 0x80000000)])) (fun t => t.x 10) =
      some 0x80000000 := by decide +kernel
/-- L2.41.13. -/
theorem test_mul_is_signed :
    after (step (running 0x10 0x01090019 [(8, 0xFFFFFFFD), (9, 7)])) (fun t => (t.hi, t.lo)) =
      some (0xFFFFFFFF, 0xFFFFFFEB) := by decide +kernel
/-- L2.41.17. -/
theorem test_mul_high :
    after (step (running 0x10 0x01090019 [(8, 0x7FFFFFFF), (9, 0x80000000)]))
      (fun t => (t.hi, t.lo)) = some (0xC0000000, 0x80000000) := by decide +kernel
/-- L2.41.19. -/
theorem test_div_truncates :
    after (step (running 0x10 0x0109001B [(8, 0xFFFFFFF9), (9, 2)])) (fun t => (t.hi, t.lo)) =
      some (0xFFFFFFFF, 0xFFFFFFFD) := by decide +kernel
/-- L2.41.30: HI and LO unchanged. -/
theorem test_div_by_zero :
    after (step ((running 0x10 0x0109001B [(8, 5)]).setHiLo 0x11 0x22))
      (fun t => (t.run, t.hi, t.lo, t.pc)) =
      some (.faulted .divideByZero 0x10, 0x11, 0x22, 0x14) := by decide +kernel
/-- L2.41.33. -/
theorem test_mfhi :
    after (step ((running 0x10 0x00005010 []).setHiLo 0xFFFFFFFF 5)) (fun t => (t.x 10, t.hi)) =
      some (0xFFFFFFFF, 0xFFFFFFFF) := by decide +kernel
/-- L2.41.35. -/
theorem test_mflo :
    after (step ((running 0x10 0x00005012 []).setHiLo 5 0xFFFFFFEB)) (fun t => t.x 10) =
      some 0xFFFFFFEB := by decide +kernel
/-- L2.41.37. -/
theorem test_and :
    after (step (running 0x10 0x01095024 [(8, 0xF0F0F0F0), (9, 0xFF00FF00)])) (fun t => t.x 10) =
      some 0xF000F000 := by decide +kernel
/-- L2.41.38. -/
theorem test_or :
    after (step (running 0x10 0x01095025 [(8, 0xF0F0F0F0), (9, 0xFF00FF00)])) (fun t => t.x 10) =
      some 0xFFF0FFF0 := by decide +kernel
/-- L2.41.39. -/
theorem test_nor :
    after (step (running 0x10 0x01095027 [(8, 0xF0F0F0F0), (9, 0xFF00FF00)])) (fun t => t.x 10) =
      some 0x000F000F := by decide +kernel
/-- L2.41.40. -/
theorem test_xor :
    after (step (running 0x10 0x01095026 [(8, 0xF0F0F0F0), (9, 0xFF00FF00)])) (fun t => t.x 10) =
      some 0x0FF00FF0 := by decide +kernel
/-- L2.41.47: rs is ignored. -/
theorem test_sll :
    after (step (running 0x10 0x03E95040 [(9, 0x40000000), (31, 0x77)])) (fun t => t.x 10) =
      some 0x80000000 := by decide +kernel
/-- L2.41.49. -/
theorem test_srl_zero_fill :
    after (step (running 0x10 0x000957C3 [(9, 0x80000000)])) (fun t => t.x 10) = some 1 := by
  decide +kernel
/-- L2.41.50. -/
theorem test_srl_sign_fill :
    after (step (withCfg { Config.default with srlFill := .sign }
      (running 0x10 0x000957C3 [(9, 0x80000000)]))) (fun t => t.x 10) = some 0xFFFFFFFF := by
  decide +kernel
/-- L2.42.1. -/
theorem test_jr :
    after (step (running 0x10 0x03E00008 [(31, 0x40)])) (fun t => (t.pc, t.run)) =
      some (0x40, .running) := by decide +kernel
/-- L2.42.18. -/
theorem test_syscall_unknown :
    after (step (running 0x10 0x0000000C [])) (fun t => (t.run, t.pc)) =
      some (.faulted (.unknownSyscallCode 0) 0x10, 0x14) := by decide +kernel
/-- L2.42.8. -/
theorem test_exit :
    after (step (running 0x10 0x0000028C [(2, 7), (4, 9)])) (fun t => (t.run, t.hostLog, t.x 2)) =
      some (.exited 0, [.exit 0], 7) := by decide +kernel
/-- L2.42.9. -/
theorem test_print_str :
    after (step (holding (running 0x10 0x0000010C [(4, 0x100)]) 0x100 0x00006948))
      (fun t => (t.hostLog, t.x 2)) = some ([.printStr [0x48, 0x69]], 0) := by decide +kernel
/-- L2.42.11: no NUL before the end of memory, nothing printed but the diagnostic. -/
theorem test_print_str_runs_off :
    after (step (holding (running 0x10 0x0000010C [(4, 0xFFFA)]) 0xFFF8 0x42410000))
      (fun t => (t.run, t.hostLog)) =
      some (.faulted (.memoryOutOfRange 0xFFFC) 0x10,
        [.diagnostic (.memoryOutOfRange 0xFFFC) 0x10 1]) := by decide +kernel
/-- L2.42.13: the low byte; the result register holds the host's value, whatever it is. -/
theorem test_print_char :
    after (step (running 0x10 0x000002CC [(4, 0x141)])) (fun t => (t.hostLog, t.hostDraws)) =
      some ([.printChar 0x41], 1) := by decide +kernel
/-- L2.42.14. -/
theorem test_read_char :
    after (step (running 0x10 0x0000030C [(2, 0x99)])) (fun t => (t.hostLog, t.hostDraws, t.pc)) =
      some ([.readChar], 1, 0x14) := by decide +kernel
/-- L2.42.15. -/
theorem test_start_tracing :
    after (step (running 0x10 0x0001FF8C [])) (fun t => (t.trace, t.hostLog)) =
      some (true, []) := by decide +kernel
/-- L2.42.16: the step is traced, and the next is not. The short stack keeps the trace small. -/
theorem test_stop_tracing :
    after (step { (running 0x10 0x0001FFCC [(29, 0x1004), (30, 0x1008)]) with trace := true })
      (fun t => (t.trace, t.hostLog.length)) = some (false, 1) := by decide +kernel
/-- L2.43.1. -/
theorem test_addi_sign_extends :
    after (step (running 0x10 0x2509FFFF [(8, 5)])) (fun t => t.x 9) = some 4 := by decide +kernel
/-- L2.43.7. -/
theorem test_andi_zero_extends :
    after (step (running 0x10 0x31098000 [(8, 0xFFFFFFFF)])) (fun t => t.x 9) =
      some 0x00008000 := by decide +kernel
/-- L2.43.10. -/
theorem test_ori :
    after (step (running 0x10 0x3509FFFF [(8, 0x12340000)])) (fun t => t.x 9) =
      some 0x1234FFFF := by decide +kernel
/-- L2.43.13. -/
theorem test_xori :
    after (step (running 0x10 0x390900FF [(8, 0xFFFFFFFF)])) (fun t => t.x 9) =
      some 0xFFFFFF00 := by decide +kernel
/-- L2.44.1, L2.44.2. -/
theorem test_beq :
    after (step (running 0x10 0x11090003 [(8, 7), (9, 7)])) (fun t => t.pc) = some 0x20 ∧
    after (step (running 0x10 0x11090003 [(8, 7), (9, 8)])) (fun t => t.pc) = some 0x14 := by
  decide +kernel
/-- L2.44.6, L2.44.7. -/
theorem test_bne :
    after (step (running 0x10 0x1509FFFB [(8, 1), (9, 2)])) (fun t => t.pc) = some 0 ∧
    after (step (running 0x10 0x15080004 [(8, 1)])) (fun t => t.pc) = some 0x14 := by decide +kernel
/-- L2.44.8, L2.44.9. -/
theorem test_bgez :
    after (step (running 0x10 0x05000002 [])) (fun t => t.pc) = some 0x1C ∧
    after (step (running 0x10 0x05000002 [(8, 0x80000000)])) (fun t => t.pc) = some 0x14 := by
  decide +kernel
/-- L2.44.12, L2.44.14. -/
theorem test_bgtz :
    after (step (running 0x10 0x1D000002 [])) (fun t => t.pc) = some 0x14 ∧
    after (step (running 0x10 0x1D000002 [(8, 1)])) (fun t => t.pc) = some 0x1C := by decide +kernel
/-- L2.44.15, L2.44.17. -/
theorem test_blez :
    after (step (running 0x10 0x19000002 [])) (fun t => t.pc) = some 0x1C ∧
    after (step (running 0x10 0x19000002 [(8, 1)])) (fun t => t.pc) = some 0x14 := by decide +kernel
/-- L2.44.18, L2.44.19. -/
theorem test_bltz :
    after (step (running 0x10 0x2100FFFC [])) (fun t => t.pc) = some 0x14 ∧
    after (step (running 0x10 0x2100FFFC [(8, 0xFFFFFFFF)])) (fun t => t.pc) = some 4 := by
  decide +kernel
/-- L2.45.2. -/
theorem test_lbu :
    after (step (holding (running 0x10 0x91090001 [(8, 0x100)]) 0x100 0x11223344)) (fun t => t.x 9) =
      some 0x33 := by decide +kernel
/-- L2.45.8: register 0 as the destination still faults. -/
theorem test_lbu_out_of_range :
    after (step (running 0x10 0x91000000 [(8, 0xFFFC)])) (fun t => t.run) =
      some (.faulted (.memoryOutOfRange 0xFFFC) 0x10) := by decide +kernel
/-- L2.45.10: a misaligned load reads the aligned word. -/
theorem test_lw_misaligned :
    after (step (holding (running 0x10 0x8D090002 [(8, 0x100)]) 0x100 0x11223344)) (fun t => t.x 9) =
      some 0x11223344 := by decide +kernel
/-- L2.45.13. -/
theorem test_lw_negative_address :
    after (step (running 0x10 0x8C09FFFC [])) (fun t => t.run) =
      some (.faulted (.memoryOutOfRange 0xFFFFFFFC) 0x10) := by decide +kernel
/-- L2.45.14. -/
theorem test_sb :
    after (step (holding (running 0x10 0xA1090001 [(8, 0x100), (9, 0xABCDEFAA)]) 0x100 0x11223344))
      (fun t => t.mem.readWord .little 0x40) = some 0x1122AA44 := by decide +kernel
/-- L2.45.18. -/
theorem test_sw_misaligned :
    after (step (holding (running 0x10 0xAD090003 [(8, 0x100), (9, 0xCAFEBABE)]) 0x100 0x11223344))
      (fun t => t.mem.readWord .little 0x40) = some 0xCAFEBABE := by decide +kernel
/-- L2.45.20: storing zeros removes the entries. -/
theorem test_sw_zero :
    after (step (holding (base 0x10 [(8, 0x100)]) 0x10 0xAD000004)) (fun t => t.mem) =
      after (.next (holding (base 0x10 [(8, 0x100)]) 0x10 0xAD000004)) (fun t => t.mem) := by
  decide +kernel
/-- L2.46.3. -/
theorem test_j :
    after (step (running 0x10 0x08003FFE [])) (fun t => t.pc) = some 0xFFF8 := by decide +kernel
/-- L2.46.8. -/
theorem test_jal_link_overwritten :
    after (step (running 0xFFF8 0x0C000000 [(31, 0x1234)])) (fun t => (t.x 31, t.pc)) =
      some (0xFFFC, 0) := by decide +kernel

/-- L2.41.56, L2.43.18. -/
theorem test_unknown_codes_fault :
    after (step (running 0x10 0x00000001 [])) (fun t => (t.run, t.pc)) =
      some (.faulted (.unknownFunctionCode 1) 0x10, 0x14) ∧
    after (step (running 0x10 0x28001234 [])) (fun t => (t.run, t.pc)) =
      some (.faulted (.unknownOpcode 10) 0x10, 0x14) := by decide +kernel

/-- L2.20.1, L2.20.4. -/
theorem test_byte_order :
    (List.range 4).map (Memory.read (Memory.writeWord .little [] 0x40 0x11223344) <| 0x100 + ·) =
      [0x44, 0x33, 0x22, 0x11] ∧
    (List.range 4).map (Memory.read (Memory.writeWord .big [] 0x40 0x11223344) <| 0x100 + ·) =
      [0x11, 0x22, 0x33, 0x44] := by decide +kernel

/-- L1.8: four entries on one line, two of them zero. -/
theorem test_zero_run_collapsing :
    linesOf 5 (dumpEntries [(0, 0), (4, 0), (8, 5), (12, 0), (16, 0), (20, 0), (24, 7)]) =
      [[⟨0, 0, true⟩, ⟨8, 5, false⟩, ⟨12, 0, true⟩, ⟨24, 7, false⟩]] := by decide

/-- L2.70.2, L2.70.6, L2.70.7. -/
theorem test_load :
    (load .default ⟨0, 6, 0x1000, 0, 0x2000⟩ [0x0000028C, 0x12345678] []).map
      (fun s => (s.mem.readWord .little 0, s.mem.readWord .little 1)) = some (0x0000028C, 0) ∧
    load .default ⟨65528, 8, 0x1000, 0, 0x2000⟩ [0, 0] [] = none ∧
    load .default ⟨0, 8, 0x1000, 0, 0x2000⟩ [0x0000028C] [] = none := by decide +kernel

/-! ## Witnesses: the hypotheses of each obligation, met together -/

/-- A running machine for each clause: a failing check, an instruction, the two unknown codes. -/
theorem test_witness_StepRunsTheFetchedInstruction :
    ((base 2 []).run = .running ∧ (base 2 []).checkInvariants = some .pcAlign) ∧
    ((running 0xFFF8 0 []).run = .running ∧ (running 0xFFF8 0 []).checkInvariants = none ∧
      decode Maps.default (running 0xFFF8 0 []).fetchWord = .instr (.sll 0 0 0)) ∧
    ((running 0 0xFC000000 []).checkInvariants = none ∧
      decode Maps.default (running 0 0xFC000000 []).fetchWord = .unknownOpcode 63) ∧
    ((running 0 1 []).checkInvariants = none ∧
      decode Maps.default (running 0 1 []).fetchWord = .unknownFunctionCode 1) := by decide +kernel

theorem test_witness_NoStepAfterTheRunEnds :
    { State.reset with run := .exited 0 }.run = .exited 0 ∧
    { State.reset with run := .faulted .divideByZero 4 }.run = .faulted .divideByZero 4 ∧
    ∃ t, step State.reset = .next t ∧ t.run = .running :=
  ⟨rfl, rfl, next_of_after (by decide +kernel)⟩

/-- A step that answers a next state, and the one that never completes. -/
theorem test_witness_RunningMachineAlwaysSteps :
    (State.reset.run = .running ∧ ∃ t, step State.reset = .next t ∧ t.pc = 4) ∧
    step (withCfg { Config.default with hostSilentAt := some 0 } (running 0x10 0x0000030C [])) =
      .fault .readCharUnanswered :=
  ⟨⟨rfl, next_of_after (by decide +kernel)⟩, fault_of_stopOf (by decide +kernel)⟩

/-- L2.60.5, L2.60.6 (the first address outside memory) and L2.60.7 (the last). -/
theorem test_witness_BadPcFaultsAtTheNextStep :
    ((base 2 []).run = .running ∧ u32 (base 2 []).pc % 4 ≠ 0) ∧
    ((base 0xFFFC []).run = .running ∧ u32 (base 0xFFFC []).pc % 4 = 0 ∧
      memCapacity ≤ u32 (base 0xFFFC []).pc) ∧
    (u32 (base 0xFFFFFFFC []).pc % 4 = 0 ∧ memCapacity ≤ u32 (base 0xFFFFFFFC []).pc) := by
  decide +kernel

/-- The last word of memory. -/
theorem test_witness_SequentialAdvanceNeverWraps :
    ((running 0xFFF8 0 []).run = .running ∧ (running 0xFFF8 0 []).checkInvariants = none) ∧
    u32 (running 0xFFF8 0 []).pc = 65528 ∧
    ∃ t, step (running 0xFFF8 0 []) = .next t ∧ (t.run, t.pc) = (.running, 0xFFFC) :=
  ⟨by decide +kernel, by decide +kernel, next_of_after (by decide +kernel)⟩

/-- L2.30.4, L2.30.12, L2.30.24: every field at its largest value. -/
theorem test_witness_DecoderSelectsShapeByOpcode :
    opOf 0x03FFFFFF = 0 ∧ opOf 0x0FFFFFFF = OpcodeMap.default.jal ∧
    (opOf 0xFFFFFFFF ≠ 0 ∧ opOf 0xFFFFFFFF ≠ OpcodeMap.default.j ∧
      opOf 0xFFFFFFFF ≠ OpcodeMap.default.jal) := by decide +kernel

/-- One running state per clause: L2.30.2, L2.30.24, L2.42.21, a known code of each form. -/
theorem test_witness_UnknownCodesFaultAtDispatch :
    ([(0x00000001 : Word), 0xFFFFFFFF, 0x03FFFFCC, 0x01095021, 0x25090001, 0x0FFFFFFF].all fun w =>
      decide ((running 0x10 w []).run = .running ∧ (running 0x10 w []).checkInvariants = none ∧
        (running 0x10 w []).cfg.maps.WellFormed ∧ (running 0x10 w []).fetchWord = w)) = true ∧
    (opOf 0x00000001 = 0 ∧ functOf 0x00000001 ∉ FunctMap.default.values) ∧
    opOf 0xFFFFFFFF ∉ OpcodeMap.default.values ∧
    (opOf 0x03FFFFCC = 0 ∧ functOf 0x03FFFFCC = FunctMap.default.syscall ∧
      codeOf 0x03FFFFCC ∉ SyscallMap.default.values) ∧
    (opOf 0x01095021 = 0 ∧ functOf 0x01095021 ∈ FunctMap.default.values) ∧
    (opOf 0x25090001 ≠ 0 ∧ opOf 0x25090001 ∈ OpcodeMap.default.values) ∧
    opOf 0x0FFFFFFF = OpcodeMap.default.jal := by decide +kernel

theorem test_witness_EncodedInstructionDecodesToItself :
    Maps.default.WellFormed ∧
    ∀ i ∈ [Instr.add 31 31 31, .sll 31 31 31, .sw 31 31 0xFFFF, .j 0x3FFFFFF, .syscall 0xFFFFF,
      .exit], i.WellFormed .default = true := by decide +kernel

theorem test_witness_DecodedWordIsItsEncoding :
    Maps.default.WellFormed ∧ decode .default 0x01095161 = .instr (.add 10 8 9) := by decide +kernel

/-- L2.41.6 and L2.41.1: two words that differ in an ignored field. -/
theorem test_witness_IgnoredFieldsDoNotMatter :
    decode .default 0x01095161 = .instr (.add 10 8 9) ∧
    0x01095161 &&& usedBits (.add 10 8 9) = 0x01095021 &&& usedBits (.add 10 8 9) := by
  decide +kernel

/-- The form hypotheses of the R-form statements (AddAndSubWrap, MulWritesTheExactProduct,
MoveFromHiLoCopies, BitwiseRegisterFormIsBitByBit, ShiftLeftFillsWithZeros, ShiftRightFillsAsConfigured,
JumpRegisterTakesItsTarget, DivWritesQuotientAndRemainder): every function code is some word's. -/
theorem test_witness_registerForms :
    Maps.default.WellFormed ∧
    (FunctMap.default.values.all fun f =>
      decide (opOf (wordR 31 31 31 31 f) = 0 ∧ functOf (wordR 31 31 31 31 f) = f)) = true := by decide +kernel

/-- The form hypotheses of the I-form and J-form statements (AddImmediateSignExtends,
LogicImmediateZeroExtends, BranchOnEqualityTakesItsTarget, BranchOnSignTakesItsTarget, LoadsReadMemory,
StoreByteWritesOneByte, StoreWordWritesOneWord, JumpsTakeTheirTarget). -/
theorem test_witness_immediateAndJumpForms :
    Maps.default.WellFormed ∧
    (OpcodeMap.default.values.tail.all fun op => decide (opOf (wordI op 31 31 0xFFFF) = op)) = true ∧
    opOf (wordJ OpcodeMap.default.jal 0x3FFFFFF) = OpcodeMap.default.jal := by decide +kernel

/-- The form hypotheses of the service statements (ExitEndsTheRun, PrintStrSendsTheString,
PrintCharSendsTheLowByte, ReadCharWaitsForTheHost, TracingServicesSetTheFlag). -/
theorem test_witness_serviceForms :
    State.reset.cfg.maps.WellFormed ∧
    (SyscallMap.default.values.all fun code => decide (opOf (wordSyscall .default code) = 0 ∧
      functOf (wordSyscall .default code) = FunctMap.default.syscall ∧
      codeOf (wordSyscall .default code) = code)) = true := by decide +kernel

/-- A zero divisor, the overflowing pair under both policies, and the pairs next to it. -/
theorem test_witness_DivWritesQuotientAndRemainder :
    (base 0 [(8, 5)]).x 9 = 0 ∧
    ((base 0 [(8, 0x80000000), (9, 0xFFFFFFFF)]).x 8 = 0x80000000 ∧
      (base 0 [(8, 0x80000000), (9, 0xFFFFFFFF)]).x 9 = 0xFFFFFFFF ∧
      (base 0 [(8, 0x80000000), (9, 0xFFFFFFFF)]).cfg.divOverflow = .fault) ∧
    (withCfg { Config.default with divOverflow := .wrap }
      (base 0 [(8, 0x80000000), (9, 0xFFFFFFFF)])).cfg.divOverflow = .wrap ∧
    ([((0x80000000 : Word), (1 : Word)), (0x80000001, 0xFFFFFFFF), (0x80000000, 0xFFFFFFFE)].all
      fun ab => decide ((base 0 [(8, ab.1), (9, ab.2)]).x 9 ≠ 0 ∧
        ¬ ((base 0 [(8, ab.1), (9, ab.2)]).x 8 = 0x80000000 ∧
          (base 0 [(8, ab.1), (9, ab.2)]).x 9 = 0xFFFFFFFF))) = true := by decide +kernel

theorem test_witness_DivideIdentityHolds :
    (base 0 [(8, 0x80000000), (9, 3)]).x 9 ≠ 0 ∧
    ¬ ((base 0 [(8, 0x80000000), (9, 3)]).x 8 = 0x80000000 ∧
      (base 0 [(8, 0x80000000), (9, 3)]).x 9 = 0xFFFFFFFF) ∧
    ∃ t, exec (.div 8 9) (base 0 [(8, 0x80000000), (9, 3)]) = .next t ∧
      (t.lo, t.hi) = (0xD5555556, 0xFFFFFFFE) :=
  ⟨by decide +kernel, by decide +kernel, next_of_after (by decide +kernel)⟩

/-- Both fills. -/
theorem test_witness_ShiftRightFillsAsConfigured :
    State.reset.cfg.srlFill = .zero ∧
    (withCfg { Config.default with srlFill := .sign } State.reset).cfg.srlFill = .sign := by decide

/-- The last instruction address and one whose target wraps below 0, L2.44.20
(BranchOnEqualityTakesItsTarget, BranchOnSignTakesItsTarget). -/
theorem test_witness_branchesAdvancePc :
    (base 0xFFFC []).pc = 0xFFF8 + 4 ∧ (base 0x14 []).pc = 0x10 + 4 := by decide +kernel

/-- A misaligned target, and the first one outside memory. -/
theorem test_witness_JumpRegisterTakesItsTarget :
    ((base 4 [(8, 0x13)]).run = .running ∧ u32 ((base 4 [(8, 0x13)]).x 8) % 4 ≠ 0) ∧
    ((base 4 [(8, 0xFFFC)]).run = .running ∧ memCapacity ≤ u32 ((base 4 [(8, 0xFFFC)]).x 8)) := by
  decide +kernel

/-- The largest advanced pc an instruction in memory has. -/
theorem test_witness_JumpsTakeTheirTarget : u32 (base 0xFFFC []).pc ≤ memCapacity := by decide +kernel

/-- The last byte of memory and the first address outside it (LoadsReadMemory, StoreByteWritesOneByte,
StoreWordWritesOneWord). -/
theorem test_witness_loadsAndStores :
    (0xFFFB = (base 0 [(8, 0xFFFB)]).effAddr 8 0 ∧ u32 0xFFFB < memCapacity ∧
      (base 0 [(8, 0xFFFB)]).mem.wf = true) ∧
    (0xFFFC = (base 0 [(8, 0xFFFB)]).effAddr 8 1 ∧ memCapacity ≤ u32 0xFFFC) ∧
    (0xFFFFFFFC = (base 0 []).effAddr 0 0xFFFC ∧ memCapacity ≤ u32 0xFFFFFFFC) := by decide +kernel

/-- A canonical memory with a listed word, and one with none. -/
theorem test_witness_MemoryViewsAgree :
    Memory.wf [] = true ∧ Memory.wf (Memory.writeWord .little [] 0x40 0x11003344) = true ∧
    (0x41 : Nat) ≠ 0x40 ∧ (0xFF : Nat) / 4 ≠ 0x40 := by decide +kernel

theorem test_witness_MemoryPrimitivesCheckTheRange :
    memCapacity ≤ u32 0x0000FFFC ∧ memCapacity ≤ u32 0xFFFFFFFF ∧ u32 0x0000FFFB < memCapacity := by
  decide

/-- L2.45.21. -/
theorem test_witness_StoreIsSeenByTheNextFetch :
    ((base 4 [(9, 0x0000028C)]).mem.wf = true ∧
      u32 ((base 4 [(9, 0x0000028C)]).effAddr 0 4) < memCapacity ∧
      u32 ((base 4 [(9, 0x0000028C)]).effAddr 0 4) / 4 = u32 (base 4 [(9, 0x0000028C)]).pc / 4) ∧
    decode Maps.default ((base 4 [(9, 0x0000028C)]).x 9) = .instr .exit ∧
    ∃ t, exec (.sw 9 0 4) (base 4 [(9, 0x0000028C)]) = .next t ∧
      (t.run, t.checkInvariants) = (.running, none) :=
  ⟨by decide +kernel, by decide +kernel, next_of_after (by decide +kernel)⟩

theorem test_witness_OnlyStoresWriteMemory :
    ¬ isStore (.lw 9 28 0) ∧ ∃ t, exec (.lw 9 28 0) State.reset = .next t ∧ t.x 9 = 0 :=
  ⟨id, next_of_after (by decide +kernel)⟩

theorem test_witness_RegisterZeroReadsZero : (31 : RegIx) ≠ 0 ∧ (0 : RegIx) ≠ 31 := by decide

/-- Two states that differ in a register `add` does not read; a step that never completes. -/
theorem test_witness_RegisterAccessTable :
    (State.reset.cfg.maps.WellFormed ∧
      AgreeOn (readRegs Config.default (.add 10 8 9)) (base 0 [(11, 1)]) (base 0 [(11, 2)]) ∧
      (base 0 [(11, 1)]).run = .running ∧
      ∃ s', exec (.add 10 8 9) (base 0 [(11, 1)]) = .next s' ∧ s'.run = .running) ∧
    exec .readChar (withCfg { Config.default with hostSilentAt := some 0 } State.reset) =
      .fault .readCharUnanswered :=
  ⟨⟨by decide +kernel, ⟨by decide +kernel, by decide +kernel⟩, by decide +kernel,
    next_of_after (by decide +kernel)⟩, fault_of_stopOf (by decide +kernel)⟩

theorem test_witness_HiLoPassThroughOtherInstructions : ¬ usesHiLo (.add 10 8 9) := id

theorem test_witness_OnlyTracingServicesWriteTheFlag :
    ¬ setsTrace Config.default (.add 10 8 9) ∧
    ∃ t, exec (.add 10 8 9) State.reset = .next t ∧ t.trace = false :=
  ⟨id, next_of_after (by decide +kernel)⟩

/-- L2.42.18 to L2.42.21: codes next to a service's, and the largest. -/
theorem test_witness_SyscallRunsItsServiceOrFaults :
    Maps.default.WellFormed ∧ State.reset.cfg.maps = Maps.default ∧
    ([(0 : BitVec 20), 13, 2045, 2048, 0xFFFFF].all fun code => decide (
      code ∉ Maps.default.sys.values ∧ opOf (wordSyscall .default code) = 0 ∧
      functOf (wordSyscall .default code) = FunctMap.default.syscall ∧
      codeOf (wordSyscall .default code) = code)) = true := by decide +kernel

/-- The empty string, a string whose NUL is the last byte of memory, one that runs off the end, and a
start outside memory; both parameters. -/
theorem test_witness_PrintStrSendsTheString :
    (State.reset.cfg.maps.WellFormed ∧ State.reset.cfg.printStrResult = .unchanged ∧
      (withCfg { Config.default with printStrResult := .draw } State.reset).cfg.printStrResult =
        .draw) ∧
    (u32 ((base 0 [(4, 0)]).x argReg) + 0 < memCapacity ∧ (base 0 [(4, 0)]).mem.read 0 = 0) ∧
    (u32 ((base 0 [(4, 0xFFFA)]).x argReg) + 1 < memCapacity ∧
      (∀ k < 1, (holding (base 0 [(4, 0xFFFA)]) 0xFFF8 0x00410000).mem.read (0xFFFA + k) ≠ 0) ∧
      (holding (base 0 [(4, 0xFFFA)]) 0xFFF8 0x00410000).mem.read (0xFFFA + 1) = 0) ∧
    memCapacity ≤ u32 ((base 0 [(4, 0xFFFC)]).x argReg) := by decide +kernel

/-- The running-off clause of PrintStrSendsTheString: the last two bytes of memory are not NUL
(L2.42.11). -/
theorem test_witness_PrintStrSendsTheString_runsOff :
    u32 ((base 0 [(4, 0xFFFA)]).x argReg) = 0xFFFA ∧
    ∀ a, 0xFFFA ≤ a → a < memCapacity →
      (holding (base 0 [(4, 0xFFFA)]) 0xFFF8 0x42410000).mem.read a ≠ 0 := by
  refine ⟨by decide +kernel, fun a h1 h2 => ?_⟩
  obtain rfl | rfl : a = 0xFFFA ∨ a = 0xFFFB := by simp only [memCapacity] at h2; omega
  · decide +kernel
  · decide +kernel

theorem test_witness_ReadCharWaitsForTheHost :
    State.reset.cfg.maps.WellFormed ∧ State.reset.cfg.hostSilentAt ≠ some State.reset.hostDraws ∧
    (withCfg { Config.default with hostSilentAt := some 0 } State.reset).cfg.hostSilentAt =
      some State.reset.hostDraws := by decide +kernel

/-- L2.60.1 to L2.60.16: each side of InvariantCheckReportsTheFirstFailure is met. -/
theorem test_witness_InvariantCheckReportsTheFirstFailure :
    ([(0xFFF8, 0x1000, 0x8000, 0x8000), (0, 0, 4, 0xFFF8), (2, 0x1000, 0x8000, 0x8000),
      (0xFFFC, 0x1000, 0x8000, 0x8000), (0, 0x1001, 0x8000, 0x8000), (0, 0x1000, 0x8002, 0x8000),
      (0, 0x1000, 0x8000, 0x8003), (0, 0x1000, 0x1000, 0x8000), (0, 0x1000, 0x8004, 0x8000),
      (0, 0xFFFFFFFC, 0x8000, 0x8000), (0, 0x1000, 0x8000, 0xFFFC), (6, 0x1001, 0x8002, 0x8000)].map
      fun (v : Word × Word × Word × Word) =>
        (base v.1 [(28, v.2.1), (29, v.2.2.1), (30, v.2.2.2)]).checkInvariants) =
    [none, none, some .pcAlign, some .pcRange, some .gpAlign, some .spAlign, some .fpAlign,
      some .stackOrder, some .stackOrder, some .stackOrder, some .stackOrder, some .pcAlign] ∧
    { State.reset with regs := State.reset.regs.set 0 1 }.checkInvariants = some .zeroReg := by
  decide +kernel

/-- A fault before the fetch and one in dispatch. -/
theorem test_witness_FaultsArePrecise :
    ((base 2 []).checkInvariants ≠ none ∧ ∃ t, step (base 2 []) = .next t ∧
      t.run = .faulted (.invariantViolation .pcAlign) 2) ∧
    ((running 0x10 0x0109001B []).checkInvariants = none ∧
      ∃ t, step (running 0x10 0x0109001B []) = .next t ∧ t.run = .faulted .divideByZero 0x10) :=
  ⟨⟨by decide +kernel, next_of_after (by decide +kernel)⟩, by decide +kernel,
    next_of_after (by decide +kernel)⟩

theorem test_witness_FaultsEachInstructionMayRaise :
    State.reset.run = .running ∧
    ∃ t, exec (.div 8 9) (base 0x14 []) = .next t ∧ t.run = .faulted .divideByZero 0x10 :=
  ⟨rfl, next_of_after (by decide +kernel)⟩

/-- The reset state meets the invariant and has a step (ZeroRegTestNeverFires, StepKeepsTheInvariant,
ParametersNeverChange). -/
theorem test_witness_invariants :
    State.reset.Inv ∧ ∃ t, step State.reset = .next t ∧ t.run = .running :=
  ⟨⟨by decide, by decide, by decide, by decide, trivial⟩, next_of_after (by decide +kernel)⟩

/-- Two states that differ in the flag and in a trace already sent; the short stack keeps the trace
small. -/
theorem test_witness_TracingIsInvisible :
    SameButTrace (running 0x10 0x25090001 [(29, 0x1004), (30, 0x1008)])
      ({ (running 0x10 0x25090001 [(29, 0x1004), (30, 0x1008)]) with trace := true }.send
        (.trace (traceRecord (base 0 [(29, 0x1004), (30, 0x1008)])))) ∧
    (∃ s', step (running 0x10 0x25090001 [(29, 0x1004), (30, 0x1008)]) = .next s' ∧ s'.x 9 = 1) ∧
    step { State.reset with run := .exited 0 } = .fault .runExited :=
  ⟨⟨rfl, by decide +kernel⟩, next_of_after (by decide +kernel), rfl⟩

/-- HI and LO both zero, and one of them not. -/
theorem test_witness_TraceDumpsTheRegisters :
    (State.reset.hi = 0 ∧ State.reset.lo = 0) ∧
    hiLoDump (State.reset.setHiLo 0 1) = some (0, 1) := by decide +kernel

/-- The check passes with the smallest data and stack ranges and with the largest. -/
theorem test_witness_RangeDumpCollapsesZeroRuns :
    (base 0 [(28, 0), (29, 4), (30, 4)]).checkInvariants = none ∧
    (base 0 [(28, 0), (29, 4), (30, 0xFFF8)]).checkInvariants = none := by decide +kernel

/-- L2.70.8: the data segment overlaps the text, so that each of the last three clauses has a case. -/
theorem test_witness_LoadSetsTheState :
    admissible ⟨0, 8, 4, 4, 0x2000⟩ [0, 0x0000028C] [0x0000000C] = true ∧
    (load .default ⟨0, 8, 4, 4, 0x2000⟩ [0, 0x0000028C] [0x0000000C]).map
      (fun s => (s.mem.readWord .little 0, s.mem.readWord .little 1, s.mem.readWord .little 2)) =
      some (0, 0x0000000C, 0) := by decide +kernel

/-- An image that ends at the last byte of memory, and one a word longer. -/
theorem test_witness_LoadRefusesAnInadmissibleImage :
    (load .default ⟨65528, 4, 0x1000, 0, 0x2000⟩ [0] []).isSome = true ∧
    load .default ⟨65528, 8, 0x1000, 0, 0x2000⟩ [0, 0] [] = none := by decide +kernel

/-- L2.70.1's header, and L2.70.3 to L2.70.5, which load but fail the check. -/
theorem test_witness_InvariantsHoldIffTheHeaderIsWellFormed :
    [load .default ⟨0, 4, 0x1000, 0, 0x2000⟩ [0x0000028C] [],
      load .default ⟨0, 4, 0x2000, 0, 0x2000⟩ [0x0000028C] [],
      load .default ⟨2, 4, 0x1000, 0, 0x2000⟩ [0x0000028C] [],
      load .default ⟨0, 4, 0x1000, 0, 65532⟩ [0x0000028C] []].map
      (fun r => r.map fun s => s.checkInvariants) =
    [some none, some (some .stackOrder), some (some .pcAlign), some (some .stackOrder)] := by
  decide +kernel

end Sys2Proof.Tests
end

/-! ## What a step can do, and O49

`StepEffect` says once what a step that answers a next state does, as `Effect` does for an instruction;
invariants of the step follow from the two by cases. -/

namespace Sys2Proof.Machine

variable {s t : State} {i : Instr}

/-! ### The step -/

/-- What a step from a running `s` does when it answers a next state: one constructor per way through
R111 and R112. -/
inductive StepEffect (s : State) : State → Prop
  | violation (kind : InvariantKind) : s.checkInvariants = some kind →
      StepEffect s (s.raiseAt (.invariantViolation kind) s.pc)
  | unknownOpcode (op : BitVec 6) : s.checkInvariants = none →
      decode s.cfg.maps s.fetchWord = .unknownOpcode op →
      StepEffect s (s.begun.raiseAt (.unknownOpcode op) s.pc)
  | unknownFunctionCode (funct : BitVec 6) : s.checkInvariants = none →
      decode s.cfg.maps s.fetchWord = .unknownFunctionCode funct →
      StepEffect s (s.begun.raiseAt (.unknownFunctionCode funct) s.pc)
  | instruction (i : Instr) (t : State) : s.checkInvariants = none →
      decode s.cfg.maps s.fetchWord = .instr i → Effect s.begun i t → StepEffect s t

/-- Everything a step can do. -/
theorem step_effect (h : step s = .next t) : StepEffect s t := by
  have hr := running_of_step h
  cases hc : s.checkInvariants with
  | some kind =>
    rw [step_of_violation hr hc] at h
    cases h
    exact .violation kind hc
  | none =>
    rw [step_of_ready hr hc] at h
    cases hd : decode s.cfg.maps s.fetchWord with
    | instr i =>
      rw [hd] at h
      exact .instruction i t hc hd (exec_effect h)
    | unknownOpcode op =>
      rw [hd, dispatchWith, takeFault_begun] at h
      cases h
      exact .unknownOpcode op hc hd
    | unknownFunctionCode funct =>
      rw [hd, dispatchWith, takeFault_begun] at h
      cases h
      exact .unknownFunctionCode funct hc hd

/-! ### The result of `print_str` -/

@[simp] theorem printStrResult_cfg : (printStrResult s).cfg = s.cfg := by
  unfold printStrResult; split <;> simp

@[simp] theorem printStrResult_hostLog : (printStrResult s).hostLog = s.hostLog := by
  unfold printStrResult; split <;> simp

/-- `print_str` draws under `PRINT_STR_RESULT = draw` alone (R163). -/
theorem printStrResult_hostDraws :
    (printStrResult s).hostDraws =
      if s.cfg.printStrResult = .draw then s.hostDraws + 1 else s.hostDraws := by
  unfold printStrResult; split <;> simp_all

/-! ### Parameters and host -/

/-- `t` has the parameters of `s`, and the host has been sent no less and has returned at most one
value more. -/
def ExtendsHost (s t : State) : Prop :=
  t.cfg = s.cfg ∧ (∃ es, t.hostLog = s.hostLog ++ es) ∧
  (t.hostDraws = s.hostDraws ∨ t.hostDraws = s.hostDraws + 1)

theorem extendsHost_of_keepsHost (hcfg : t.cfg = s.cfg) (hhost : KeepsHost s t) :
    ExtendsHost s t := by
  obtain ⟨hlog, hdraws⟩ := hhost
  exact ⟨hcfg, ⟨[], by rw [hlog, List.append_nil]⟩, .inl hdraws⟩

theorem extendsHost_raiseAt (c : Cause) (p : Word) : ExtendsHost s (s.raiseAt c p) :=
  ⟨rfl, ⟨_, rfl⟩, .inl rfl⟩

/-- A request the host answers is sent and counted once. -/
theorem extendsHost_of_asks {e : HostEvent} {v : Word} (h : Asks s t e v) : ExtendsHost s t := by
  obtain ⟨-, hlog, hdraws, -, -, -, -, -, hcfg⟩ := h
  exact ⟨hcfg, ⟨_, hlog⟩, .inr hdraws⟩

theorem extendsHost_printStr (bs : List Byte) :
    ExtendsHost s (printStrResult (s.send (.printStr bs))) := by
  refine ⟨by simp, ⟨[.printStr bs], by simp⟩, ?_⟩
  rw [printStrResult_hostDraws]
  split
  · exact .inr rfl
  · exact .inl rfl

/-- No instruction changes a parameter, takes back what was sent, or draws twice. -/
theorem Effect.extendsHost (h : Effect s i t) : ExtendsHost s t := by
  cases h with
  | nothing => exact extendsHost_of_keepsHost rfl keepsHost_refl
  | register rd v => exact extendsHost_of_keepsHost (by simp) ⟨by simp, by simp⟩
  | hiLo hi lo => exact extendsHost_of_keepsHost rfl ⟨rfl, rfl⟩
  | jump p => exact extendsHost_of_keepsHost rfl ⟨rfl, rfl⟩
  | link addr v p => exact extendsHost_of_keepsHost (by simp) ⟨by simp, by simp⟩
  | storeByte a b => exact extendsHost_of_keepsHost rfl ⟨rfl, rfl⟩
  | storeWord a v => exact extendsHost_of_keepsHost rfl ⟨rfl, rfl⟩
  | fault c => exact extendsHost_raiseAt c _
  | exit => exact ⟨rfl, ⟨[.exit 0], rfl⟩, .inl rfl⟩
  | printStr bs => exact extendsHost_printStr bs
  | printChar => exact extendsHost_of_asks asks_servicePrintChar
  | readChar => exact extendsHost_of_asks (asks_send_setX _ _)
  | trace b => exact extendsHost_of_keepsHost rfl ⟨rfl, rfl⟩

/-- Before dispatch a step sends the host at most the trace and draws nothing, so what dispatch adds is
all it adds besides. -/
theorem ExtendsHost.of_begun (h : ExtendsHost s.begun t) : ExtendsHost s t := by
  obtain ⟨hcfg, ⟨es, hlog⟩, hdraws⟩ := h
  rw [State.begun_cfg] at hcfg
  rw [State.begun_hostLog, List.append_assoc] at hlog
  rw [State.begun_hostDraws] at hdraws
  exact ⟨hcfg, ⟨_, hlog⟩, hdraws⟩

theorem StepEffect.extendsHost (h : StepEffect s t) : ExtendsHost s t := by
  cases h with
  | violation kind => exact extendsHost_raiseAt _ _
  | unknownOpcode op => exact (extendsHost_raiseAt _ _).of_begun
  | unknownFunctionCode funct => exact (extendsHost_raiseAt _ _).of_begun
  | instruction i _ _ _ he => exact he.extendsHost.of_begun

/-- Settles O49: by the ways a step can go, and for a dispatched instruction by its effects. -/
theorem parametersNeverChange : Obligations.ParametersNeverChange :=
  fun _ _ h => (step_effect h).extendsHost

end Sys2Proof.Machine

/-! ## The state: registers, HI and LO, the tracing flag (O50, O34, O35, O36, O4, O33, O48)

`SameEffect` is `Effect` (Laws/Exec.lean) read for two states at once: an instruction that finds the same
inputs in both does the same to both. The three noninterference statements follow from it by its cases. -/

namespace Sys2Proof.Machine

variable {s t s' t' : State} {i : Instr} {a b : Result}

/-! ### What an instruction reads -/

/-- The two states hold the same in everything the instruction `i` may read: the registers of its
"reads" column (10_state.md R23), HI and LO if it uses them (R25), and what every instruction may see. -/
structure SameInputs (i : Instr) (s t : State) : Prop where
  cfg : t.cfg = s.cfg
  pc : t.pc = s.pc
  mem : t.mem = s.mem
  hostDraws : t.hostDraws = s.hostDraws
  hiLo : usesHiLo i → t.hi = s.hi ∧ t.lo = s.lo
  regs : ∀ r ∈ readRegs s.cfg i, t.x r = s.x r

theorem SameInputs.x_one {r : RegIx} (h : SameInputs i s t) (hr : readRegs s.cfg i = [r]) :
    t.x r = s.x r := h.regs r (by simp [hr])

theorem SameInputs.x_pair {r q : RegIx} (h : SameInputs i s t) (hr : readRegs s.cfg i = [r, q]) :
    t.x r = s.x r ∧ t.x q = s.x q := ⟨h.regs r (by simp [hr]), h.regs q (by simp [hr])⟩

theorem effAddr_congr {rs : RegIx} (h : t.x rs = s.x rs) (imm : BitVec 16) :
    t.effAddr rs imm = s.effAddr rs imm := by
  rw [State.effAddr, State.effAddr, h]

theorem SameInputs.memRead8 (h : SameInputs i s t) (ea : Word) : t.memRead8 ea = s.memRead8 ea := by
  simp only [State.memRead8, h.mem]

theorem SameInputs.memRead32 (h : SameInputs i s t) (ea : Word) :
    t.memRead32 ea = s.memRead32 ea := by
  simp only [State.memRead32, h.mem, h.cfg]

/-! ### The same effect on two states -/

/-- What an instruction that finds the same inputs in `s` and `t` answers for the two: one constructor
per kind of effect. Where the run goes on, the registers written are the "writes" column of the table
(for a string sent, under maps R88 allows: a code shared with `print_char` would have its column). -/
inductive SameEffect (i : Instr) (s t : State) : Result → Result → Prop
  | register (rd : RegIx) (v : Word) : writtenRegs s.cfg i = [rd] →
      SameEffect i s t (.next (s.setX rd v)) (.next (t.setX rd v))
  | hiLo (hi lo : Word) : usesHiLo i → writtenRegs s.cfg i = [] →
      SameEffect i s t (.next (s.setHiLo hi lo)) (.next (t.setHiLo hi lo))
  | jump (p : Word) : writtenRegs s.cfg i = [] →
      SameEffect i s t (.next (s.setPc p)) (.next (t.setPc p))
  | link (v p : Word) : writtenRegs s.cfg i = [linkReg] →
      SameEffect i s t (.next ((s.setX linkReg v).setPc p)) (.next ((t.setX linkReg v).setPc p))
  | store (m : Memory) : writtenRegs s.cfg i = [] →
      SameEffect i s t (.next { s with mem := m }) (.next { t with mem := m })
  | trace (on : Bool) : writtenRegs s.cfg i = [] →
      SameEffect i s t (.next { s with trace := on }) (.next { t with trace := on })
  | send (e : HostEvent) : (s.cfg.maps.WellFormed → writtenRegs s.cfg i = []) →
      SameEffect i s t (.next (s.send e)) (.next (t.send e))
  | ask (e : HostEvent) (v : Word) : writtenRegs s.cfg i = [resultReg] →
      SameEffect i s t (.next ((s.send e).setX resultReg v).drawn)
        (.next ((t.send e).setX resultReg v).drawn)
  | endRun (e : HostEvent) (r : RunState) : r ≠ .running →
      SameEffect i s t (.next { s.send e with run := r }) (.next { t.send e with run := r })
  | unanswered : SameEffect i s t (.fault .readCharUnanswered) (.fault .readCharUnanswered)

theorem sameEffect_register {rd : RegIx} {v w : Word} (hw : writtenRegs s.cfg i = [rd])
    (hv : w = v) : SameEffect i s t (.next (s.setX rd v)) (.next (t.setX rd w)) := by
  subst hv
  exact .register rd w hw

theorem sameEffect_jump {p q : Word} (hw : writtenRegs s.cfg i = []) (hp : q = p) :
    SameEffect i s t (.next (s.setPc p)) (.next (t.setPc q)) := by
  subst hp
  exact .jump q hw

/-- A branch is a jump, not taken to where `pc` already is. -/
theorem branchIf_eq_setPc (c : Bool) (imm : BitVec 16) :
    s.branchIf c imm = s.setPc (if c then branchTarget s.pc imm else s.pc) := by
  cases c <;> rfl

theorem sameEffect_branchIf {c d : Bool} {imm : BitVec 16} (h : SameInputs i s t)
    (hw : writtenRegs s.cfg i = []) (hc : d = c) :
    SameEffect i s t (.next (s.branchIf c imm)) (.next (t.branchIf d imm)) := by
  rw [branchIf_eq_setPc, branchIf_eq_setPc]
  exact sameEffect_jump hw (by rw [hc, h.pc])

theorem sameEffect_setHiLo {hi lo hi' lo' : Word} (hu : usesHiLo i)
    (hw : writtenRegs s.cfg i = []) (hhi : hi' = hi) (hlo : lo' = lo) :
    SameEffect i s t (.next (s.setHiLo hi lo)) (.next (t.setHiLo hi' lo')) := by
  subst hhi hlo
  exact .hiLo _ _ hu hw

theorem sameEffect_takeFault (h : SameInputs i s t) (c : Cause) :
    SameEffect i s t (s.takeFault c) (t.takeFault c) := by
  simp only [takeFault_eq, State.raiseAt, h.pc, h.cfg]
  exact .endRun _ _ nofun

theorem sameEffect_loadInto {rt : RegIx} (h : SameInputs i s t) (hw : writtenRegs s.cfg i = [rt])
    (ea : Word) (v : Option Word) :
    SameEffect i s t (s.loadInto rt ea v) (t.loadInto rt ea v) := by
  cases v with
  | none => exact sameEffect_takeFault h _
  | some v => exact .register rt v hw

theorem sameEffect_store {m n : Memory} (hw : writtenRegs s.cfg i = []) (hm : n = m) :
    SameEffect i s t (.next { s with mem := m }) (.next { t with mem := n }) := by
  subst hm
  exact .store n hw

theorem sameEffect_store8 (h : SameInputs i s t) (hw : writtenRegs s.cfg i = []) (ea : Word)
    (v : Byte) :
    SameEffect i s t (s.storeOr ea (s.memWrite8 ea v)) (t.storeOr ea (t.memWrite8 ea v)) := by
  unfold State.memWrite8
  split
  · exact sameEffect_store hw (by rw [h.mem])
  · exact sameEffect_takeFault h _

theorem sameEffect_store32 (h : SameInputs i s t) (hw : writtenRegs s.cfg i = []) (ea v : Word) :
    SameEffect i s t (s.storeOr ea (s.memWrite32 ea v)) (t.storeOr ea (t.memWrite32 ea v)) := by
  unfold State.memWrite32
  split
  · exact sameEffect_store hw (by rw [h.mem, h.cfg])
  · exact sameEffect_takeFault h _

theorem sameEffect_div {rs rt : RegIx} (h : SameInputs (.div rs rt) s t) :
    SameEffect (.div rs rt) s t (execDiv rs rt s) (execDiv rs rt t) := by
  obtain ⟨hrs, hrt⟩ := h.x_pair rfl
  unfold execDiv
  rw [hrs, hrt, h.cfg]
  split
  · exact sameEffect_takeFault h _
  split
  · split
    · exact sameEffect_takeFault h _
    · exact .hiLo _ _ trivial rfl
  · exact .hiLo _ _ trivial rfl

/-! #### The services -/

theorem sameEffect_serviceExit : SameEffect i s t (.next (serviceExit s)) (.next (serviceExit t)) :=
  .endRun _ _ nofun

theorem sameEffect_servicePrintStr (h : SameInputs i s t) (ha : argReg ∈ readRegs s.cfg i)
    (hkeep : s.cfg.printStrResult = .unchanged → s.cfg.maps.WellFormed → writtenRegs s.cfg i = [])
    (hdraw : s.cfg.printStrResult = .draw → writtenRegs s.cfg i = [resultReg]) :
    SameEffect i s t (servicePrintStr s) (servicePrintStr t) := by
  have hstr : stringAt t (t.x argReg) = stringAt s (s.x argReg) := by
    rw [h.regs argReg ha]
    exact stringFrom_congr h.mem _ _
  unfold servicePrintStr
  rw [hstr]
  cases stringAt s (s.x argReg) with
  | error ea => exact sameEffect_takeFault h _
  | ok bs =>
    simp only [printStrResult, State.send_cfg, State.send_hostDraws, h.cfg, h.hostDraws]
    cases hp : s.cfg.printStrResult with
    | unchanged => exact .send _ (hkeep hp)
    | draw => exact .ask _ _ (hdraw hp)

theorem sameEffect_servicePrintChar (h : SameInputs i s t) (ha : argReg ∈ readRegs s.cfg i)
    (hw : writtenRegs s.cfg i = [resultReg]) :
    SameEffect i s t (.next (servicePrintChar s)) (.next (servicePrintChar t)) := by
  unfold servicePrintChar
  rw [h.regs argReg ha, h.hostDraws]
  exact .ask _ _ hw

theorem sameEffect_serviceReadChar (h : SameInputs i s t)
    (hw : writtenRegs s.cfg i = [resultReg]) :
    SameEffect i s t (serviceReadChar s) (serviceReadChar t) := by
  unfold serviceReadChar
  rw [h.cfg, h.hostDraws]
  split
  · exact .unanswered
  · exact .ask _ _ hw

/-- R88: no other service has the code of `print_str`. -/
theorem printStr_code_ne {m : Maps} (h : m.WellFormed) :
    m.sys.printStr ≠ m.sys.printChar ∧ m.sys.printStr ≠ m.sys.readChar := by
  obtain ⟨-, -, hs⟩ := h
  simp only [SyscallMap.WellFormed, SyscallMap.values, List.nodup_cons, List.mem_cons, not_or] at hs
  tauto

theorem writtenRegs_syscall_eq_nil {c : Config} {code : BitVec 20}
    (hstr : code ≠ c.maps.sys.printStr) (hchar : code ≠ c.maps.sys.printChar)
    (hread : code ≠ c.maps.sys.readChar) : writtenRegs c (.syscall code) = [] := by
  simp [writtenRegs, hstr, hchar, hread]

theorem sameEffect_syscall {code : BitVec 20} (h : SameInputs (.syscall code) s t) :
    SameEffect (.syscall code) s t (execSyscall code s) (execSyscall code t) := by
  unfold execSyscall
  rw [h.cfg]
  split
  · exact sameEffect_serviceExit
  split
  next hcode =>
    subst hcode
    refine sameEffect_servicePrintStr h (by simp [readRegs]) (fun hp hm => ?_) (fun hp => ?_)
    · simp [writtenRegs, printStrWrites, hp, printStr_code_ne hm]
    · simp [writtenRegs, printStrWrites, hp]
  split
  · exact sameEffect_servicePrintChar h (by simp [readRegs, *]) (by simp [writtenRegs, *])
  split
  · exact sameEffect_serviceReadChar h (by simp [writtenRegs, *])
  split
  · exact .trace true (writtenRegs_syscall_eq_nil ‹_› ‹_› ‹_›)
  split
  · exact .trace false (writtenRegs_syscall_eq_nil ‹_› ‹_› ‹_›)
  · exact sameEffect_takeFault h _

/-! #### Every instruction -/

/-- An instruction's outcome is fixed by its inputs: with the same inputs it does the same. -/
theorem exec_sameEffect (h : SameInputs i s t) : SameEffect i s t (exec i s) (exec i t) := by
  cases i
  case add | sub | and | or | nor | xor =>
    obtain ⟨hrs, hrt⟩ := h.x_pair rfl
    exact sameEffect_register rfl (by rw [hrs, hrt])
  case mul =>
    obtain ⟨hrs, hrt⟩ := h.x_pair rfl
    exact sameEffect_setHiLo trivial rfl (by rw [hrs, hrt]) (by rw [hrs, hrt])
  case div => exact sameEffect_div h
  case mfhi => exact sameEffect_register rfl (h.hiLo trivial).1
  case mflo => exact sameEffect_register rfl (h.hiLo trivial).2
  case sll | addi | andi | ori | xori => exact sameEffect_register rfl (by rw [h.x_one rfl])
  case srl => exact sameEffect_register rfl (by rw [h.x_one rfl, h.cfg])
  case jr => exact sameEffect_jump rfl (h.x_one rfl)
  case syscall => exact sameEffect_syscall h
  case beq | bne =>
    obtain ⟨hrs, hrt⟩ := h.x_pair rfl
    exact sameEffect_branchIf h rfl (by rw [hrs, hrt])
  case bgez | bgtz | blez | bltz => exact sameEffect_branchIf h rfl (by rw [h.x_one rfl])
  case lbu =>
    simp only [exec, execLbu, effAddr_congr (h.x_one rfl), h.memRead8]
    exact sameEffect_loadInto h rfl _ _
  case lw =>
    simp only [exec, execLw, effAddr_congr (h.x_one rfl), h.memRead32]
    exact sameEffect_loadInto h rfl _ _
  case sb =>
    obtain ⟨hrs, hrt⟩ := h.x_pair rfl
    simp only [exec, execSb, effAddr_congr hrs, hrt]
    exact sameEffect_store8 h rfl _ _
  case sw =>
    obtain ⟨hrs, hrt⟩ := h.x_pair rfl
    simp only [exec, execSw, effAddr_congr hrs, hrt]
    exact sameEffect_store32 h rfl _ _
  case j => exact sameEffect_jump rfl (by rw [h.pc])
  case jal =>
    simp only [exec, execJal, h.pc]
    exact .link _ _ rfl
  case exit => exact sameEffect_serviceExit
  case printStr =>
    exact sameEffect_servicePrintStr h (by simp [readRegs])
      (fun hp _ => by simp [writtenRegs, printStrWrites, hp])
      (fun hp => by simp [writtenRegs, printStrWrites, hp])
  case printChar => exact sameEffect_servicePrintChar h (by simp [readRegs]) rfl
  case readChar => exact sameEffect_serviceReadChar h rfl
  case startTracing => exact .trace true rfl
  case stopTracing => exact .trace false rfl

/-! ### Outcomes in a relation -/

/-- Where the first outcome is a next state, so is the second, and the two are in the relation `R`;
where the first is a stop, the second is the same stop. -/
def OutcomesAgree (R : State → State → Prop) (a b : Result) : Prop :=
  (∀ s', a = .next s' → ∃ t', b = .next t' ∧ R s' t') ∧ ∀ f, a = .fault f → b = .fault f

theorem outcomesAgree_next {R : State → State → Prop} (h : R s t) :
    OutcomesAgree R (.next s) (.next t) := by
  refine ⟨fun s' hs => ?_, nofun⟩
  cases hs
  exact ⟨t, rfl, h⟩

theorem outcomesAgree_fault {R : State → State → Prop} (f : Fault) :
    OutcomesAgree R (.fault f) (.fault f) :=
  ⟨nofun, fun _ h => h⟩

/-- A register write as an update of the register file, register 0 included (R22). -/
theorem State.setX_eq_regs (rd : RegIx) (v : Word) :
    s.setX rd v = { s with regs := if rd = zeroReg then s.regs else s.regs.set rd v } := by
  unfold State.setX
  split <;> rfl

/-! ### Tracing -/

/-- States that are one with the flag and the log left out are one but for these two. -/
theorem eq_of_untraced_eq (h : s.untraced = t.untraced) :
    ∃ on log, t = { s with trace := on, hostLog := log } := by
  refine ⟨t.trace, t.hostLog, ?_⟩
  cases s
  cases t
  simp_all [State.untraced]

/-- Two states in the relation, each sent the same events, stay in it. -/
theorem SameButTrace.sent {es : List HostEvent} (h : SameButTrace s t)
    (hu : s'.untraced = t'.untraced) (hs : s'.hostLog = s.hostLog ++ es)
    (ht : t'.hostLog = t.hostLog ++ es) : SameButTrace s' t' := by
  refine ⟨hu, ?_⟩
  rw [hs, ht, List.filter_append, List.filter_append, h.2]

theorem SameButTrace.kept (h : SameButTrace s t) (hu : s'.untraced = t'.untraced)
    (hs : s'.hostLog = s.hostLog) (ht : t'.hostLog = t.hostLog) : SameButTrace s' t' :=
  h.sent (es := []) hu (by simpa using hs) (by simpa using ht)

/-- The effects of an instruction on two states that tracing alone tells apart leave them so. -/
theorem SameEffect.sameButTrace (h : SameEffect i s t a b) (hst : SameButTrace s t) :
    OutcomesAgree SameButTrace a b := by
  obtain ⟨on, l, rfl⟩ := eq_of_untraced_eq hst.1
  cases h with
  | register rd v =>
    simp only [State.setX_eq_regs]
    exact outcomesAgree_next (hst.kept rfl rfl rfl)
  | hiLo hi lo => exact outcomesAgree_next (hst.kept rfl rfl rfl)
  | jump p => exact outcomesAgree_next (hst.kept rfl rfl rfl)
  | link v p => exact outcomesAgree_next (hst.kept rfl rfl rfl)
  | store m => exact outcomesAgree_next (hst.kept rfl rfl rfl)
  | trace on => exact outcomesAgree_next (hst.kept rfl rfl rfl)
  | send e => exact outcomesAgree_next (hst.sent rfl rfl rfl)
  | ask e v => exact outcomesAgree_next (hst.sent rfl rfl rfl)
  | endRun e r => exact outcomesAgree_next (hst.sent rfl rfl rfl)
  | unanswered => exact outcomesAgree_fault _

/-- The trace a step sends is one of the records the relation leaves out. -/
theorem SameButTrace.begun (h : SameButTrace s t) : SameButTrace s.begun t.begun := by
  obtain ⟨on, l, rfl⟩ := eq_of_untraced_eq h.1
  refine ⟨?_, ?_⟩
  · simp only [State.begun, State.traced]
    split <;> split <;> rfl
  · simp only [State.begun_hostLog, List.filter_append, h.2]
    split <;> split <;> simp

/-- Neither the flag nor what the host was sent is an input of any instruction. -/
theorem SameButTrace.sameInputs (h : SameButTrace s t) (i : Instr) : SameInputs i s t := by
  obtain ⟨on, l, rfl⟩ := eq_of_untraced_eq h.1
  exact ⟨rfl, rfl, rfl, rfl, fun _ => ⟨rfl, rfl⟩, fun _ _ => rfl⟩

theorem SameButTrace.raiseAt (h : SameButTrace s t) (c : Cause) (p : Word) :
    SameButTrace (s.raiseAt c p) (t.raiseAt c p) := by
  obtain ⟨on, l, rfl⟩ := eq_of_untraced_eq h.1
  exact h.sent rfl rfl rfl

/-- Dispatch on one decoded word keeps the relation. -/
theorem SameButTrace.outcomesAgree_dispatch (h : SameButTrace s t) (d : Decoded) :
    OutcomesAgree SameButTrace (dispatchWith exec s d) (dispatchWith exec t d) := by
  have hpc := (h.sameInputs .exit).pc
  cases d with
  | instr i => exact (exec_sameEffect (h.sameInputs i)).sameButTrace h
  | unknownOpcode op =>
    simp only [dispatchWith, takeFault_eq, hpc]
    exact outcomesAgree_next (h.raiseAt _ _)
  | unknownFunctionCode funct =>
    simp only [dispatchWith, takeFault_eq, hpc]
    exact outcomesAgree_next (h.raiseAt _ _)

/-- The check and the fetch see neither the flag nor what the host was sent. -/
theorem SameButTrace.fetch_eq (h : SameButTrace s t) :
    t.run = s.run ∧ t.checkInvariants = s.checkInvariants ∧
    decode t.cfg.maps t.fetchWord = decode s.cfg.maps s.fetchWord ∧ t.pc = s.pc := by
  obtain ⟨on, l, rfl⟩ := eq_of_untraced_eq h.1
  exact ⟨rfl, rfl, rfl, rfl⟩

/-- Two states that tracing alone tells apart take the same way through R110 and R111. -/
theorem SameButTrace.outcomesAgree_step (h : SameButTrace s t) :
    OutcomesAgree SameButTrace (step s) (step t) := by
  obtain ⟨hrun, hcheck, hfetch, hpc⟩ := h.fetch_eq
  cases hr : s.run with
  | exited n =>
    simp only [step, stepWith, hrun, hr]
    exact outcomesAgree_fault _
  | faulted c p =>
    simp only [step, stepWith, hrun, hr]
    exact outcomesAgree_fault _
  | running =>
    cases hc : s.checkInvariants with
    | some kind =>
      rw [step_of_violation hr hc, step_of_violation (hrun.trans hr) (hcheck.trans hc), hpc]
      exact outcomesAgree_next (h.raiseAt _ _)
    | none =>
      rw [step_of_ready hr hc, step_of_ready (hrun.trans hr) (hcheck.trans hc), hfetch]
      exact h.begun.outcomesAgree_dispatch _

/-- Settles O50: a step keeps the relation, by the instruction's effects on both states. -/
theorem tracingIsInvisible : Obligations.TracingIsInvisible :=
  fun _ _ h => h.outcomesAgree_step

/-! ### Registers -/

/-- What the table of R23 says of one instruction run on two states `s` and `t` that differ in
registers alone, with the outcomes `s'` and `t'`. -/
def AccessesTable (i : Instr) (s s' t' : State) : Prop :=
  KeepsRegsBut s s' (writtenRegs s.cfg i) ∧ { s' with regs := t'.regs } = t' ∧
  (s.run = .running → s'.run = .running →
    ∀ r ∈ writtenRegs s.cfg i, r ≠ zeroReg → s'.slot r = t'.slot r)

/-- An instruction with an empty "writes" column keeps the register file. -/
theorem accessesTable_of_none (hw : writtenRegs s.cfg i = []) (hs : s'.regs = s.regs)
    (heq : { s' with regs := t'.regs } = t') : AccessesTable i s s' t' := by
  refine ⟨fun r _ => ?_, heq, fun _ _ => by simp [hw]⟩
  rw [State.slot, State.slot, hs]

/-- An instruction that writes the one register of its "writes" column, with the same value in both. -/
theorem accessesTable_of_one {rd : RegIx} {v : Word} (hw : writtenRegs s.cfg i = [rd])
    (hs : ∀ r, s'.slot r = (s.setX rd v).slot r) (ht : ∀ r, t'.slot r = (t.setX rd v).slot r)
    (heq : { s' with regs := t'.regs } = t') : AccessesTable i s s' t' := by
  refine ⟨fun r hr => ?_, heq, fun _ _ r hr h0 => ?_⟩
  · have hne : r ≠ rd := by simpa [hw] using hr
    rw [hs, State.setX_slot, if_neg fun h => hne h.1]
  · have hr' : r = rd := by simpa [hw] using hr
    rw [hs, ht, State.setX_slot, State.setX_slot, if_pos ⟨hr', h0⟩, if_pos ⟨hr', h0⟩]

/-- The table of R23 holds for an instruction that finds the same inputs in both states. -/
theorem SameEffect.accessesTable (h : SameEffect i s t a b) (hm : s.cfg.maps.WellFormed)
    (hst : { s with regs := t.regs } = t) : OutcomesAgree (AccessesTable i s) a b := by
  obtain ⟨regs, rfl⟩ : ∃ regs, t = { s with regs := regs } := ⟨_, hst.symm⟩
  cases h with
  | register rd v hw =>
    refine outcomesAgree_next (accessesTable_of_one hw (fun _ => rfl) (fun _ => rfl) ?_)
    simp only [State.setX_eq_regs]
  | hiLo hi lo _ hw => exact outcomesAgree_next (accessesTable_of_none hw rfl rfl)
  | jump p hw => exact outcomesAgree_next (accessesTable_of_none hw rfl rfl)
  | link v p hw =>
    exact outcomesAgree_next (accessesTable_of_one hw (fun _ => rfl) (fun _ => rfl) rfl)
  | store m hw => exact outcomesAgree_next (accessesTable_of_none hw rfl rfl)
  | trace on hw => exact outcomesAgree_next (accessesTable_of_none hw rfl rfl)
  | send e hw => exact outcomesAgree_next (accessesTable_of_none (hw hm) rfl rfl)
  | ask e v hw =>
    exact outcomesAgree_next (accessesTable_of_one hw (fun _ => rfl) (fun _ => rfl) rfl)
  | endRun e r hr => exact outcomesAgree_next ⟨fun _ _ => rfl, rfl, fun _ hrun => absurd hrun hr⟩
  | unanswered => exact outcomesAgree_fault _

theorem AgreeOn.sameInputs (h : AgreeOn (readRegs s.cfg i) s t) : SameInputs i s t := by
  obtain ⟨hst, hregs⟩ := h
  obtain ⟨regs, rfl⟩ : ∃ regs, t = { s with regs := regs } := ⟨_, hst.symm⟩
  exact ⟨rfl, rfl, rfl, rfl, fun _ => ⟨rfl, rfl⟩, fun r hr => (hregs r hr).symm⟩

/-- Settles O34: by the instruction's effects on both states. -/
theorem registerAccessTable : Obligations.RegisterAccessTable := by
  intro i s t hm h
  obtain ⟨hnext, hfault⟩ := (exec_sameEffect h.sameInputs).accessesTable hm h.1
  refine ⟨fun s' hs => ?_, fun s' hs => ?_, hfault⟩
  · obtain ⟨t', -, hkeeps, -⟩ := hnext s' hs
    exact hkeeps
  · obtain ⟨t', ht, -, heq, hwritten⟩ := hnext s' hs
    exact ⟨t', ht, heq, hwritten⟩

/-- Settles O33: by what a register write does. -/
theorem registerZeroReadsZero : Obligations.RegisterZeroReadsZero := by
  intro s i v
  refine ⟨rfl, if_pos rfl, fun hi => ?_, fun r hr => ?_, writesReg_setX i v⟩
  · rw [State.setX_x, if_pos ⟨rfl, hi⟩]
  · rw [State.setX_x, if_neg fun h => hr h.1]

/-! ### HI and LO -/

/-- An instruction that does not use HI and LO does to a state with other values in them what it does to
the state, and leaves them. -/
theorem SameEffect.eq_mapNext_setHiLo {hi lo : Word} (h : SameEffect i s (s.setHiLo hi lo) a b)
    (hi' : ¬ usesHiLo i) : b = mapNext (fun t => t.setHiLo hi lo) a := by
  cases h with
  | register rd v =>
    simp only [State.setX_eq_regs]
    rfl
  | hiLo _ _ hu => exact absurd hu hi'
  | jump p => rfl
  | link v p =>
    simp only [State.setX_eq_regs]
    rfl
  | store m => rfl
  | trace on => rfl
  | send e => rfl
  | ask e v => rfl
  | endRun e r => rfl
  | unanswered => rfl

/-- HI and LO are no input of an instruction that does not use them. -/
theorem sameInputs_setHiLo (hi lo : Word) (h : ¬ usesHiLo i) : SameInputs i s (s.setHiLo hi lo) :=
  ⟨rfl, rfl, rfl, rfl, fun hu => absurd hu h, fun _ _ => rfl⟩

/-- Settles O35: by the instruction's effects with the old and the new HI and LO; mfhi and mflo write a
register. -/
theorem hiLoPassThroughOtherInstructions : Obligations.HiLoPassThroughOtherInstructions :=
  ⟨fun _ _ hi lo hu => (exec_sameEffect (sameInputs_setHiLo hi lo hu)).eq_mapNext_setHiLo hu,
    fun _ _ => ⟨⟨_, rfl, by simp [KeepsHiLo]⟩, ⟨_, rfl, by simp [KeepsHiLo]⟩⟩⟩

/-! ### The tracing flag -/

@[simp] theorem printStrResult_trace : (printStrResult s).trace = s.trace := by
  unfold printStrResult; split <;> simp

theorem Effect.trace_eq (h : Effect s i t) (hi : ¬ setsTrace s.cfg i) : t.trace = s.trace := by
  cases h with
  | trace on hset => exact absurd hset hi
  | nothing => rfl
  | register rd v => simp
  | hiLo hi lo => rfl
  | jump p => rfl
  | link addr v p => simp
  | storeByte a b => rfl
  | storeWord a v => rfl
  | fault c => rfl
  | exit => rfl
  | printStr bs => simp
  | printChar => simp [servicePrintChar]
  | readChar => simp

/-- Settles O36: of the effects of an instruction only the tracing services' changes the flag. -/
theorem onlyTracingServicesWriteTheFlag : Obligations.OnlyTracingServicesWriteTheFlag :=
  fun _ _ _ hi h => (exec_effect h).trace_eq hi

/-! ### The program counter -/

theorem checkInvariants_of_misaligned (h : u32 s.pc % 4 ≠ 0) :
    s.checkInvariants = some .pcAlign := if_pos h

theorem checkInvariants_of_outOfRange (halign : u32 s.pc % 4 = 0) (h : memCapacity ≤ u32 s.pc) :
    s.checkInvariants = some .pcRange := by
  unfold State.checkInvariants
  rw [if_neg (not_not.2 halign), if_pos (Nat.not_lt.2 h)]

/-- Settles O4: the check's first two tests, and the step of a failed check. -/
theorem badPcFaultsAtTheNextStep : Obligations.BadPcFaultsAtTheNextStep :=
  fun _ hr =>
    ⟨fun h => ⟨_, step_of_violation hr (checkInvariants_of_misaligned h), faults_raiseAt _ _⟩,
      fun halign h =>
        ⟨_, step_of_violation hr (checkInvariants_of_outOfRange halign h), faults_raiseAt _ _⟩⟩

/-! ### Reset -/

/-- Settles O48: memory is empty, slot 0 holds 0, the default parameters are well formed, and the run
has not ended. -/
theorem resetMeetsTheInvariant : Obligations.ResetMeetsTheInvariant where
  memWf := rfl
  memInRange := rfl
  zeroSlot := by decide
  cfgWf := by decide
  ended := trivial

end Sys2Proof.Machine

/-! ## Memory (O47, O29, O31, O32, O30)

`Effect.mem_cases` says once what an instruction does to memory; O32 and the memory part of the invariant
follow from it. -/

namespace Sys2Proof.Machine

variable {s t : State} {i : Instr} {m : Memory}

/-! ### The two views of memory -/

/-- Byte `n` of a word as a number (R52). -/
theorem wordByte_eq_ofNat (n : Nat) (v : Word) :
    wordByte n v = BitVec.ofNat 8 (v.toNat / 2 ^ (8 * n) % 256) := by
  apply BitVec.eq_of_toNat_eq
  simp [wordByte, Nat.shiftRight_eq_div_pow]

/-- The value of four bytes put together, the most significant one first (R52). -/
theorem append_bytes_toNat (b3 b2 b1 b0 : Byte) :
    (b3 ++ b2 ++ b1 ++ b0 : BitVec (8 + 8 + 8 + 8)).toNat =
      b0.toNat + 256 * b1.toNat + 65536 * b2.toNat + 16777216 * b3.toNat := by
  simp only [toNat_append_eq]
  omega

/-- A byte write changes no word but the one that contains the byte (R51). -/
theorem Memory.readWord_write_ne (o : ByteOrder) {k a : Nat} (b : Byte) (h : k ≠ a / 4) :
    (m.write a b).readWord o k = m.readWord o k := by
  unfold Memory.readWord
  rw [Memory.read_write_ne _ (by omega), Memory.read_write_ne _ (by omega),
    Memory.read_write_ne _ (by omega), Memory.read_write_ne _ (by omega)]

/-- Settles O29: by the laws of the byte and word accesses, and the value of a word and of its bytes. -/
theorem memoryViewsAgree : Obligations.MemoryViewsAgree := by
  intro m hm
  refine ⟨fun o k v => ⟨?_, ?_, ?_, ?_, ?_⟩, fun a b => ⟨?_, ?_, ?_⟩, ?_, ?_⟩
  · exact Memory.readWord_writeWord_same o k v hm
  · exact fun _ hk => Memory.readWord_writeWord_ne o v hk
  · exact fun _ ha => Memory.read_writeWord_ne o v ha
  · exact fun j hj => (Memory.read_writeWord_same .little k v hj hm).trans (wordByte_eq_ofNat j v)
  · exact fun j hj => (Memory.read_writeWord_same .big k v hj hm).trans (wordByte_eq_ofNat (3 - j) v)
  · exact Memory.read_write_same a b hm
  · exact fun _ ha => Memory.read_write_ne b ha
  · exact fun o _ hk => Memory.readWord_write_ne o b hk
  · exact fun k => append_bytes_toNat _ _ _ _
  · exact fun k => append_bytes_toNat _ _ _ _

/-! ### The primitives -/

/-- Clearing the low two bits of an address gives the address of the word that contains it (R55). -/
theorem u32_clearLowBits (a : Word) : u32 (a &&& 0xFFFFFFFC) = u32 a / 4 * 4 := by
  have hmask : (0xFFFFFFFC : Word) = BitVec.allOnes 32 <<< 2 := by decide
  have := a.isLt
  simp only [u32, hmask, ← BitVec.shiftLeft_ushiftRight, BitVec.toNat_shiftLeft,
    BitVec.toNat_ushiftRight, Nat.shiftRight_eq_div_pow, Nat.shiftLeft_eq]
  omega

/-- The address with its low two bits cleared is in the same word and on the same side of the range
check, which falls on a word boundary. -/
theorem clearLowBits_sameWord (a : Word) :
    u32 (a &&& 0xFFFFFFFC) / 4 = u32 a / 4 ∧
    (u32 (a &&& 0xFFFFFFFC) < memCapacity ↔ u32 a < memCapacity) := by
  rw [u32_clearLowBits]
  simp only [memCapacity]
  omega

/-- Settles O30: by the primitives on the two sides of the check. -/
theorem memoryPrimitivesCheckTheRange : Obligations.MemoryPrimitivesCheckTheRange := by
  intro s a b v
  obtain ⟨hword, hrange⟩ := clearLowBits_sameWord a
  refine ⟨fun h => ⟨?_, ?_, ?_, ?_⟩, fun h => ⟨?_, ?_, ?_, ?_⟩, ?_, ?_⟩
  · exact State.memRead8_of_ge h
  · exact State.memRead32_of_ge h
  · exact State.memWrite8_of_ge b h
  · exact State.memWrite32_of_ge v h
  · exact State.memRead8_of_lt h
  · exact State.memRead32_of_lt h
  · exact State.memWrite8_of_lt b h
  · exact State.memWrite32_of_lt v h
  · simp only [State.memRead32, hword, hrange]
  · simp only [State.memWrite32, hword, hrange]

/-! ### A store and the next fetch -/

/-- An `sw` in range stores `x[rt]` in the word that contains the effective address (R224). -/
theorem exec_sw_of_lt {rt rs : RegIx} {imm : BitVec 16}
    (h : u32 (s.effAddr rs imm) < memCapacity) :
    exec (.sw rt rs imm) s = .next { s with
      mem := s.mem.writeWord s.cfg.byteOrder (u32 (s.effAddr rs imm) / 4) (s.x rt) } := by
  rw [exec, execSw, State.memWrite32_of_lt _ h, State.storeOr]

/-- Settles O31: the fetch reads the word the store wrote. -/
theorem storeIsSeenByTheNextFetch : Obligations.StoreIsSeenByTheNextFetch := by
  intro s rt rs imm hwf hea hpc
  have hfetch : State.fetchWord { s with
      mem := s.mem.writeWord s.cfg.byteOrder (u32 (s.effAddr rs imm) / 4) (s.x rt) } = s.x rt := by
    rw [State.fetchWord, hpc]
    exact Memory.readWord_writeWord_same _ _ _ hwf
  refine ⟨_, exec_sw_of_lt hea, rfl, hfetch, fun ⟨hrun, hcheck⟩ i hi => ?_⟩
  rw [step_of_ready hrun hcheck, hfetch, hi, dispatchWith]

/-! ### What an instruction does to memory -/

@[simp] theorem printStrResult_mem : (printStrResult s).mem = s.mem := by
  unfold printStrResult; split <;> simp

/-- An instruction leaves memory as the same data, or is a store that writes one byte or one word that
exists. -/
theorem Effect.mem_cases (h : Effect s i t) :
    t.mem = s.mem ∨
    (isStore i ∧ ∃ a b, a < memCapacity ∧ t.mem = s.mem.write a b) ∨
    (isStore i ∧ ∃ k v, 4 * k + 3 < memCapacity ∧ t.mem = s.mem.writeWord s.cfg.byteOrder k v) := by
  cases h with
  | storeByte a b hi ha => exact .inr (.inl ⟨hi, _, _, ha, rfl⟩)
  | storeWord a v hi ha =>
    refine .inr (.inr ⟨hi, _, _, ?_, rfl⟩)
    simp only [memCapacity] at ha ⊢
    omega
  | nothing | hiLo | jump | fault | exit | trace => exact .inl rfl
  | register | link | readChar => exact .inl (by simp)
  | printStr => exact .inl (by simp)
  | printChar => exact .inl (by simp [servicePrintChar])

/-- Settles O32: by what an instruction does to memory. -/
theorem onlyStoresWriteMemory : Obligations.OnlyStoresWriteMemory := by
  intro i s t hi h
  obtain hkept | ⟨hstore, -⟩ | ⟨hstore, -⟩ := (exec_effect h).mem_cases
  · exact hkept
  · exact absurd hstore hi
  · exact absurd hstore hi

/-! ### The invariant -/

/-- No instruction takes memory out of its canonical form or its range. -/
theorem Effect.mem_wf_inRange (h : Effect s i t) (hw : s.mem.wf = true)
    (hr : s.mem.inRange = true) : t.mem.wf = true ∧ t.mem.inRange = true := by
  obtain hkept | ⟨-, a, b, ha, hwrite⟩ | ⟨-, k, v, hk, hwrite⟩ := h.mem_cases
  · rw [hkept]
    exact ⟨hw, hr⟩
  · rw [hwrite]
    exact ⟨Memory.write_wf a b hw, Memory.write_inRange b ha hr⟩
  · rw [hwrite]
    exact ⟨Memory.writeWord_wf _ k v hw, Memory.writeWord_inRange _ v hk hr⟩

/-- No register write reaches slot 0 (R22). -/
@[simp] theorem State.setX_slot_zero (rd : RegIx) (v : Word) :
    (s.setX rd v).slot zeroReg = s.slot zeroReg := by
  rw [State.setX_slot, if_neg fun h => h.2 rfl]

@[simp] theorem printStrResult_slot_zero :
    (printStrResult s).slot zeroReg = s.slot zeroReg := by
  unfold printStrResult; split <;> simp

/-- No instruction writes slot 0 (R22). -/
theorem Effect.slot_zero (h : Effect s i t) : t.slot zeroReg = s.slot zeroReg := by
  cases h with
  | nothing | hiLo | jump | storeByte | storeWord | fault | exit | trace => rfl
  | register | link | readChar => simp
  | printStr => simp
  | printChar => simp [servicePrintChar]

@[simp] theorem printStrResult_run : (printStrResult s).run = s.run := by
  unfold printStrResult; split <;> simp

theorem endOfRunSent_of_running (h : s.run = .running) : endOfRunSent s := by
  simp [endOfRunSent, h]

/-- Fault entry ends the run with the diagnostic as the last word (R257). -/
theorem endOfRunSent_raiseAt (c : Cause) (p : Word) : endOfRunSent (s.raiseAt c p) :=
  List.getLast?_concat

theorem endOfRunSent_serviceExit : endOfRunSent (serviceExit s) :=
  ⟨rfl, List.getLast?_concat⟩

/-- An instruction of a running machine lets the run go on, or ends it and tells the host so. -/
theorem Effect.ended (h : Effect s i t) (hr : s.run = .running) : endOfRunSent t := by
  cases h with
  | fault => exact endOfRunSent_raiseAt _ _
  | exit => exact endOfRunSent_serviceExit
  | nothing | hiLo | jump | storeByte | storeWord | trace => exact endOfRunSent_of_running hr
  | register | link | readChar => exact endOfRunSent_of_running (by simpa using hr)
  | printStr => exact endOfRunSent_of_running (by simpa using hr)
  | printChar => exact endOfRunSent_of_running (by simpa [servicePrintChar] using hr)

/-- Fault entry keeps the invariant, from any run state. -/
theorem State.Inv.raiseAt (hs : s.Inv) (c : Cause) (p : Word) : (s.raiseAt c p).Inv :=
  { hs with ended := endOfRunSent_raiseAt c p }

/-- The trace and the advance of pc keep the invariant. -/
theorem State.Inv.begun (hs : s.Inv) (hr : s.run = .running) : s.begun.Inv where
  memWf := by simpa using hs.memWf
  memInRange := by simpa using hs.memInRange
  zeroSlot := by simpa using hs.zeroSlot
  cfgWf := by simpa using hs.cfgWf
  ended := endOfRunSent_of_running (by simpa using hr)

/-- Every instruction of a running machine keeps the invariant. -/
theorem Effect.inv (h : Effect s i t) (hs : s.Inv) (hr : s.run = .running) : t.Inv where
  memWf := (h.mem_wf_inRange hs.memWf hs.memInRange).1
  memInRange := (h.mem_wf_inRange hs.memWf hs.memInRange).2
  zeroSlot := h.slot_zero.trans hs.zeroSlot
  cfgWf := by
    obtain ⟨hcfg, -⟩ := h.extendsHost
    rw [hcfg]
    exact hs.cfgWf
  ended := h.ended hr

theorem StepEffect.inv (h : StepEffect s t) (hs : s.Inv) (hr : s.run = .running) : t.Inv := by
  cases h with
  | violation => exact hs.raiseAt _ _
  | unknownOpcode => exact (hs.begun hr).raiseAt _ _
  | unknownFunctionCode => exact (hs.begun hr).raiseAt _ _
  | instruction i _ _ _ he => exact he.inv (hs.begun hr) (by simpa using hr)

/-- Settles O47: by the ways a step can go, and for a dispatched instruction by its effects. -/
theorem stepKeepsTheInvariant : Obligations.StepKeepsTheInvariant :=
  fun _ _ hs h => (step_effect h).inv hs (running_of_step h)

end Sys2Proof.Machine

/-! ## The decoder and the encoder (O8, O9, O7, O10, O6, O11)

`IsWordOf m w i` says field by field that `w` is a word of `i`. Four facts carry the statements: `i`'s
encoding is a word of `i`; any word of `i` with its ignored bits cleared is that encoding; a word that
decodes to `i` is a word of `i`; and when one word of `i` decodes to `i`, every word of `i` does. -/

namespace Sys2Proof

open Laws.Selector (opcode funct)

variable {m : Maps} {w w' k : Word} {i : Instr}

/-! ### A word as its fields -/

theorem toNat_lt_of_opOf_eq_zero (h : opOf w = 0) : w.toNat < 67108864 := by
  have hval : w.toNat / 67108864 = 0 := (opOf_toNat w).symm.trans (congrArg BitVec.toNat h)
  omega

/-- An R-form word is put together from its fields (R81). -/
theorem eq_wordR (h : opOf w = 0) :
    w = wordR (rsOf w) (rtOf w) (rdOf w) (shamtOf w) (functOf w) := by
  apply BitVec.eq_of_toNat_eq
  have := toNat_lt_of_opOf_eq_zero h
  rw [wordR_toNat, rsOf_val, rtOf_val, rdOf_val, shamtOf_val, functOf_toNat]
  omega

/-- A `syscall` word is put together from its code (R81, D5). -/
theorem eq_wordSyscall (h : opOf w = 0) (hf : functOf w = m.funct.syscall) :
    w = wordSyscall m (codeOf w) := by
  apply BitVec.eq_of_toNat_eq
  have := toNat_lt_of_opOf_eq_zero h
  rw [wordSyscall_toNat, codeOf_toNat, ← hf, functOf_toNat]
  omega

/-- Every word is put together from its I-form fields (R81). -/
theorem eq_wordI (w : Word) : w = wordI (opOf w) (rsOf w) (rtOf w) (immOf w) := by
  apply BitVec.eq_of_toNat_eq
  rw [wordI_toNat, opOf_toNat, rsOf_val, rtOf_val, immOf_toNat]
  omega

/-- Every word is put together from its J-form fields (R81). -/
theorem eq_wordJ (w : Word) : w = wordJ (opOf w) (addrOf w) := by
  apply BitVec.eq_of_toNat_eq
  rw [wordJ_toNat, opOf_toNat, addrOf_toNat]
  omega

/-! ### Fields under a mask -/

theorem extractLsb'_and_of_ones {lo n : Nat} (hk : k.extractLsb' lo n = BitVec.allOnes n) :
    (w &&& k).extractLsb' lo n = w.extractLsb' lo n := by
  rw [BitVec.extractLsb'_and, hk, BitVec.and_allOnes]

theorem extractLsb'_and_of_zeros {lo n : Nat} (hk : k.extractLsb' lo n = 0#n) :
    (w &&& k).extractLsb' lo n = 0#n := by
  rw [BitVec.extractLsb'_and, hk, BitVec.and_zero]

/-- No instruction ignores its opcode (R90). -/
theorem opOf_and_usedBits : opOf (w &&& usedBits i) = opOf w :=
  extractLsb'_and_of_ones (by cases i <;> rw [usedBits] <;> decide)

/-- No instruction ignores bits 5:0: in the R form they are the function code, in the others a part of
the immediate or of the address (R90). -/
theorem functOf_and_usedBits : functOf (w &&& usedBits i) = functOf w :=
  extractLsb'_and_of_ones (by cases i <;> rw [usedBits] <;> decide)

/-! ### The words of an instruction -/

/-- The instruction's operands are the fields of `w` that its form gives it (R81, R84, R91); a service's
operand is its code (R87, R93). -/
def HasOperands (m : Maps) (w : Word) : Instr → Prop
  | .add rd rs rt | .sub rd rs rt | .and rd rs rt | .or rd rs rt | .nor rd rs rt | .xor rd rs rt =>
    rd = rdOf w ∧ rs = rsOf w ∧ rt = rtOf w
  | .mul rs rt | .div rs rt => rs = rsOf w ∧ rt = rtOf w
  | .mfhi rd | .mflo rd => rd = rdOf w
  | .sll rd rt n | .srl rd rt n => rd = rdOf w ∧ rt = rtOf w ∧ n = shamtOf w
  | .jr rs => rs = rsOf w
  | .addi rt rs imm | .andi rt rs imm | .ori rt rs imm | .xori rt rs imm | .lbu rt rs imm
  | .lw rt rs imm | .sb rt rs imm | .sw rt rs imm | .beq rs rt imm | .bne rs rt imm =>
    rs = rsOf w ∧ rt = rtOf w ∧ imm = immOf w
  | .bgez rs imm | .bgtz rs imm | .blez rs imm | .bltz rs imm => rs = rsOf w ∧ imm = immOf w
  | .j addr | .jal addr => addr = addrOf w
  | .syscall code => code = codeOf w
  | .exit => m.sys.exit = codeOf w
  | .printStr => m.sys.printStr = codeOf w
  | .printChar => m.sys.printChar = codeOf w
  | .readChar => m.sys.readChar = codeOf w
  | .startTracing => m.sys.startTracing = codeOf w
  | .stopTracing => m.sys.stopTracing = codeOf w

/-- `w` is a word of `i`: its codes are those of `i`'s row (R85, R86), and `i`'s operands are its
fields. What stands in the fields `i` ignores is left open (R90). -/
structure IsWordOf (m : Maps) (w : Word) (i : Instr) : Prop where
  opcode_eq : opOf w = opcode m i
  funct_eq : ∀ f, funct m i = some f → functOf w = f
  operands : HasOperands m w i

theorem isWordOf_encode (m : Maps) (i : Instr) : IsWordOf m (encode m i) i where
  opcode_eq := by cases i <;> simp [encode, opcode]
  funct_eq := by cases i <;> simp [encode, funct]
  operands := by cases i <;> simp [encode, HasOperands]

/-- No operand lies in an ignored field (R90). -/
theorem hasOperands_and_usedBits : HasOperands m (w &&& usedBits i) i ↔ HasOperands m w i := by
  cases i <;> simp [HasOperands, usedBits, rsOf, rtOf, rdOf, shamtOf, codeOf, immOf, addrOf,
    extractLsb'_and_of_ones]

/-- Any word of an instruction is its canonical encoding once the ignored bits are cleared (R90,
R91). -/
theorem IsWordOf.encode_eq (h : IsWordOf m w i) : encode m i = w &&& usedBits i := by
  obtain ⟨hop, hf, ho⟩ := h
  have hopUsed : opOf (w &&& usedBits i) = opcode m i := opOf_and_usedBits.trans hop
  cases i
  case add | sub | mul | div | mfhi | mflo | and | or | nor | xor | sll | srl | jr =>
    rw [eq_wordR (w := w &&& _) hopUsed, encode, ← hf _ rfl, functOf_and_usedBits]
    simp only [HasOperands] at ho
    simp [ho, rsOf, rtOf, rdOf, shamtOf, usedBits, extractLsb'_and_of_ones,
      extractLsb'_and_of_zeros]
  case syscall | exit | printStr | printChar | readChar | startTracing | stopTracing =>
    simp only [HasOperands] at ho
    rw [encode, ho, ← eq_wordSyscall hop (hf _ rfl)]
    exact BitVec.and_allOnes.symm
  case j | jal =>
    rw [eq_wordJ (w &&& _), hopUsed, encode, opcode]
    simp only [HasOperands] at ho
    simp [ho, addrOf, usedBits, extractLsb'_and_of_ones]
  all_goals
    rw [eq_wordI (w &&& _), hopUsed, encode, opcode]
    simp only [HasOperands] at ho
    simp [ho, rsOf, rtOf, immOf, usedBits, extractLsb'_and_of_ones, extractLsb'_and_of_zeros]

theorem isWordOf_of_encode_eq (h : encode m i = w &&& usedBits i) : IsWordOf m w i := by
  obtain ⟨hop, hf, ho⟩ := isWordOf_encode m i
  rw [h] at hop hf ho
  exact ⟨opOf_and_usedBits.symm.trans hop, fun f hi => functOf_and_usedBits.symm.trans (hf f hi),
    hasOperands_and_usedBits.1 ho⟩

/-! ### The shape of a word -/

theorem shapeOf_of_op_zero (h : opOf w = 0) : shapeOf m w =
    .r (rsOf w) (rtOf w) (rdOf w) (shamtOf w) (functOf w) (codeOf w) := if_pos h

theorem shapeOf_of_op_jump (h0 : opOf w ≠ 0) (h : opOf w = m.op.j ∨ opOf w = m.op.jal) :
    shapeOf m w = .j (opOf w) (addrOf w) := by
  rw [shapeOf, if_neg h0, if_pos h]

theorem shapeOf_of_op_immediate (h0 : opOf w ≠ 0) (hj : opOf w ≠ m.op.j)
    (hjal : opOf w ≠ m.op.jal) : shapeOf m w = .i (opOf w) (rsOf w) (rtOf w) (immOf w) := by
  rw [shapeOf, if_neg h0, if_neg (not_or.2 ⟨hj, hjal⟩)]

theorem decode_of_op_zero (h : opOf w = 0) : decode m w =
    selectR m (rsOf w) (rtOf w) (rdOf w) (shamtOf w) (functOf w) (codeOf w) := by
  rw [decode, shapeOf_of_op_zero h, select]

theorem decode_of_op_jump (h0 : opOf w ≠ 0) (h : opOf w = m.op.j ∨ opOf w = m.op.jal) :
    decode m w = selectJ m (opOf w) (addrOf w) := by
  rw [decode, shapeOf_of_op_jump h0 h, select]

theorem decode_of_op_immediate (h0 : opOf w ≠ 0) (hj : opOf w ≠ m.op.j)
    (hjal : opOf w ≠ m.op.jal) :
    decode m w = selectI m (opOf w) (rsOf w) (rtOf w) (immOf w) := by
  rw [decode, shapeOf_of_op_immediate h0 hj hjal, select]

/-- Settles O6: the three shapes, in the order in which the opcode selects them. -/
theorem decoderSelectsShapeByOpcode : Obligations.DecoderSelectsShapeByOpcode :=
  fun _ _ => ⟨shapeOf_of_op_zero, shapeOf_of_op_jump, shapeOf_of_op_immediate⟩

/-! ### What a `syscall` word's code selects -/

section syscallInstr
variable (code : BitVec 20)

theorem opcode_syscallInstr : opcode m (syscallInstr m.sys code) = 0 := by
  unfold syscallInstr
  split_ifs <;> rfl

theorem funct_syscallInstr : funct m (syscallInstr m.sys code) = some m.funct.syscall := by
  unfold syscallInstr
  split_ifs <;> rfl

theorem hasOperands_syscallInstr :
    HasOperands m w (syscallInstr m.sys code) ↔ code = codeOf w := by
  unfold syscallInstr
  split_ifs <;> simp [HasOperands, *]

theorem syscallInstr_wellFormed : (syscallInstr m.sys code).WellFormed m = true := by
  unfold syscallInstr
  split_ifs <;> simp [Instr.WellFormed, SyscallMap.values, *]

end syscallInstr

/-! ### What each arm of dispatch answers

The arms are chains of tests, one per row of the code map, followed with `ite_eq_iff` one test at a
time. -/

theorem selectR_eq_instr
    (h : selectR m (rsOf w) (rtOf w) (rdOf w) (shamtOf w) (functOf w) (codeOf w) = .instr i) :
    opcode m i = 0 ∧ funct m i = some (functOf w) ∧ HasOperands m w i ∧
      i.WellFormed m = true := by
  unfold selectR at h
  iterate 13
    obtain ⟨hf, hi⟩ | ⟨-, h⟩ := ite_eq_iff.1 h
    · cases hi
      exact ⟨rfl, congrArg some hf.symm, by simp [HasOperands], rfl⟩
  obtain ⟨hf, hi⟩ | ⟨-, h⟩ := ite_eq_iff.1 h
  · cases hi
    exact ⟨opcode_syscallInstr _, (funct_syscallInstr _).trans (congrArg some hf.symm),
      (hasOperands_syscallInstr _).2 rfl, syscallInstr_wellFormed _⟩
  · cases h

theorem selectI_eq_instr (h : selectI m (opOf w) (rsOf w) (rtOf w) (immOf w) = .instr i) :
    opcode m i = opOf w ∧ funct m i = none ∧ HasOperands m w i ∧ i.WellFormed m = true := by
  unfold selectI at h
  iterate 14
    obtain ⟨hop, hi⟩ | ⟨-, h⟩ := ite_eq_iff.1 h
    · cases hi
      exact ⟨hop.symm, rfl, by simp [HasOperands], rfl⟩
  cases h

theorem selectJ_eq_instr (hop : opOf w = m.op.j ∨ opOf w = m.op.jal)
    (h : selectJ m (opOf w) (addrOf w) = .instr i) :
    opcode m i = opOf w ∧ funct m i = none ∧ HasOperands m w i ∧ i.WellFormed m = true := by
  obtain ⟨hj, hi⟩ | ⟨hj, hi⟩ := ite_eq_iff.1 h <;> cases hi
  · exact ⟨hj.symm, rfl, rfl, rfl⟩
  · exact ⟨(hop.resolve_left hj).symm, rfl, rfl, rfl⟩

/-- The R arm looks at no field but the function code and the operands of what it answers. -/
theorem selectR_congr {f : BitVec 6} (hw : HasOperands m w' i)
    (h : selectR m (rsOf w) (rtOf w) (rdOf w) (shamtOf w) f (codeOf w) = .instr i) :
    selectR m (rsOf w') (rtOf w') (rdOf w') (shamtOf w') f (codeOf w') = .instr i := by
  unfold selectR at h ⊢
  iterate 13
    obtain ⟨hf, hi⟩ | ⟨hf, h⟩ := ite_eq_iff.1 h
    · cases hi
      simp only [HasOperands] at hw
      simp [hf, hw]
    rw [if_neg hf]
  obtain ⟨hf, hi⟩ | ⟨-, h⟩ := ite_eq_iff.1 h
  · cases hi
    rw [if_pos hf, ← (hasOperands_syscallInstr _).1 hw]
  · cases h

/-- The I arm looks at no field but the opcode and the operands of what it answers. -/
theorem selectI_congr {op : BitVec 6} (hw : HasOperands m w' i)
    (h : selectI m op (rsOf w) (rtOf w) (immOf w) = .instr i) :
    selectI m op (rsOf w') (rtOf w') (immOf w') = .instr i := by
  unfold selectI at h ⊢
  iterate 14
    obtain ⟨hop, hi⟩ | ⟨hop, h⟩ := ite_eq_iff.1 h
    · cases hi
      simp only [HasOperands] at hw
      simp [hop, hw]
    rw [if_neg hop]
  cases h

theorem selectJ_congr {op : BitVec 6} (hw : HasOperands m w' i)
    (h : selectJ m op (addrOf w) = .instr i) : selectJ m op (addrOf w') = .instr i := by
  have haddr : addrOf w = addrOf w' := by
    obtain ⟨-, hi⟩ | ⟨-, hi⟩ := ite_eq_iff.1 h <;> cases hi <;> exact hw
  rwa [← haddr]

/-! ### Decoding and encoding -/

/-- A word that decodes to an instruction is a word of it, and the instruction is well formed, whatever
the maps. -/
theorem isWordOf_of_decode (h : decode m w = .instr i) :
    IsWordOf m w i ∧ i.WellFormed m = true := by
  by_cases h0 : opOf w = 0
  · rw [decode_of_op_zero h0] at h
    obtain ⟨hop, hf, ho, hi⟩ := selectR_eq_instr h
    exact ⟨⟨h0.trans hop.symm, fun f hf' => Option.some.inj (hf.symm.trans hf'), ho⟩, hi⟩
  have hnotR : opcode m i = opOf w ∧ funct m i = none ∧ HasOperands m w i ∧
      i.WellFormed m = true := by
    by_cases hj : opOf w = m.op.j ∨ opOf w = m.op.jal
    · exact selectJ_eq_instr hj (decode_of_op_jump h0 hj ▸ h)
    · obtain ⟨hj, hjal⟩ := not_or.1 hj
      exact selectI_eq_instr (decode_of_op_immediate h0 hj hjal ▸ h)
  obtain ⟨hop, hf, ho, hi⟩ := hnotR
  exact ⟨⟨hop.symm, fun f hf' => (nomatch hf.symm.trans hf'), ho⟩, hi⟩

/-- When one word decodes to an instruction, every word of that instruction does, whatever the maps. -/
theorem IsWordOf.decode_congr (h' : IsWordOf m w' i) (h : decode m w = .instr i) :
    decode m w' = .instr i := by
  have hop : opOf w' = opOf w := h'.opcode_eq.trans (isWordOf_of_decode h).1.opcode_eq.symm
  by_cases h0 : opOf w = 0
  · rw [decode_of_op_zero h0] at h
    obtain ⟨-, hf, -, -⟩ := selectR_eq_instr h
    rw [decode_of_op_zero (hop.trans h0), h'.funct_eq _ hf]
    exact selectR_congr h'.operands h
  by_cases hj : opOf w = m.op.j ∨ opOf w = m.op.jal
  · rw [decode_of_op_jump h0 hj] at h
    rw [decode_of_op_jump (hop ▸ h0) (hop ▸ hj), hop]
    exact selectJ_congr h'.operands h
  · obtain ⟨hj, hjal⟩ := not_or.1 hj
    rw [decode_of_op_immediate h0 hj hjal] at h
    rw [decode_of_op_immediate (hop ▸ h0) (hop ▸ hj) (hop ▸ hjal), hop]
    exact selectI_congr h'.operands h

/-- Settles O8: by the form of the instruction. The tests before the instruction's own fail because
R88's codes are distinct, and its own gives back the fields the encoder wrote. -/
theorem encodedInstructionDecodesToItself : Obligations.EncodedInstructionDecodesToItself := by
  intro m i hm hi
  obtain ⟨hmOp, hmFunct, hmSys⟩ := hm
  have hop := OpcodeMap.later_ne hmOp
  have hfunct := FunctMap.later_ne hmFunct
  have hsys := SyscallMap.later_ne hmSys
  simp only [OpcodeMap.values, FunctMap.values, SyscallMap.values, List.pairwise_cons, List.mem_cons,
    forall_eq_or_imp, BitVec.ofNat_eq_ofNat] at hop hfunct hsys
  cases i
  case add | sub | mul | div | mfhi | mflo | and | or | nor | xor | sll | srl | jr =>
    rw [encode, decode_of_op_zero (opOf_wordR ..)]
    simp [selectR, hfunct]
  case exit | printStr | printChar | readChar | startTracing | stopTracing =>
    rw [encode, decode_of_op_zero (opOf_wordSyscall ..)]
    simp [selectR, hfunct, syscallInstr, hsys]
  case syscall =>
    rw [encode, decode_of_op_zero (opOf_wordSyscall ..)]
    simp only [Instr.WellFormed, SyscallMap.values, List.mem_cons, not_or, decide_eq_true_eq] at hi
    simp [selectR, hfunct, syscallInstr, hi]
  case j | jal =>
    rw [encode, decode_of_op_jump (by simp [hop]) (by simp)]
    simp [selectJ, hop]
  all_goals
    rw [encode, decode_of_op_immediate (by simp [hop]) (by simp [hop]) (by simp [hop])]
    simp [selectI, hop]

/-- Under maps R88 allows, every word of a well-formed instruction decodes to it: the form in which the
statements about an instruction use the decoder. -/
theorem IsWordOf.decode_eq (h : IsWordOf m w i) (hm : m.WellFormed) (hi : i.WellFormed m = true) :
    decode m w = .instr i :=
  h.decode_congr (encodedInstructionDecodesToItself m i hm hi)

/-- Settles O9: a word that decodes to an instruction is a word of it. -/
theorem decodedWordIsItsEncoding : Obligations.DecodedWordIsItsEncoding := by
  intro m w i _ h
  obtain ⟨hw, hi⟩ := isWordOf_of_decode h
  exact ⟨hw.encode_eq, hi⟩

theorem encode_and_not_usedBits (m : Maps) (i : Instr) : encode m i &&& ~~~ usedBits i = 0 := by
  rw [(isWordOf_encode m i).encode_eq, BitVec.and_assoc]
  simp

/-- Settles O10: a word that agrees on the used bits with one that decodes to `i` is a word of `i`. -/
theorem ignoredFieldsDoNotMatter : Obligations.IgnoredFieldsDoNotMatter := by
  refine ⟨fun m w w' i h hused => ?_, encode_and_not_usedBits, fun rd rs rt n imm => ?_⟩
  · obtain ⟨hw, -⟩ := isWordOf_of_decode h
    exact (isWordOf_of_encode_eq (hw.encode_eq.trans hused)).decode_congr h
  · simp only [List.mem_cons, forall_eq_or_imp, List.not_mem_nil, false_imp_iff, implies_true,
      usedBits]
    decide

/-! ### Codes that no map names (R89) -/

theorem decode_of_unknown_funct (h0 : opOf w = 0) (hf : functOf w ∉ m.funct.values) :
    decode m w = .unknownFunctionCode (functOf w) := by
  rw [decode_of_op_zero h0]
  simp only [FunctMap.values, List.mem_cons, not_or] at hf
  simp [selectR, hf]

theorem decode_of_unknown_op (hop : opOf w ∉ m.op.values) :
    decode m w = .unknownOpcode (opOf w) := by
  simp only [OpcodeMap.values, List.mem_cons, not_or] at hop
  obtain ⟨h0, hj, hjal, hop⟩ := hop
  rw [decode_of_op_immediate h0 hj hjal]
  simp [selectI, hop]

/-- One test of an arm: it answers an instruction when the test holds, or else when the tests after it
lead to one. -/
theorem exists_instr_ite {c : Prop} [Decidable c] {j : Instr} {d : Decoded}
    (h : ¬ c → ∃ i, d = .instr i) : ∃ i, (if c then .instr j else d) = .instr i := by
  by_cases hc : c
  · exact ⟨j, if_pos hc⟩
  · rw [if_neg hc]
    exact h hc

theorem exists_decode_of_known_funct (h0 : opOf w = 0) (hf : functOf w ∈ m.funct.values) :
    ∃ i, decode m w = .instr i := by
  rw [decode_of_op_zero h0]
  unfold selectR
  iterate 14 refine exists_instr_ite fun _ => ?_
  simp_all [FunctMap.values]

theorem exists_decode_of_known_op (h0 : opOf w ≠ 0) (hop : opOf w ∈ m.op.values) :
    ∃ i, decode m w = .instr i := by
  by_cases hj : opOf w = m.op.j ∨ opOf w = m.op.jal
  · rw [decode_of_op_jump h0 hj]
    exact exists_instr_ite fun _ => ⟨_, rfl⟩
  · obtain ⟨hj, hjal⟩ := not_or.1 hj
    rw [decode_of_op_immediate h0 hj hjal]
    unfold selectI
    iterate 14 refine exists_instr_ite fun _ => ?_
    simp_all [OpcodeMap.values]

/-- J-form words are never illegal. -/
theorem exists_decode_of_op_jump (h0 : opOf w ≠ 0) (hj : opOf w = m.op.j ∨ opOf w = m.op.jal) :
    ∃ addr, decode m w = .instr (.j addr) ∨ decode m w = .instr (.jal addr) := by
  rw [decode_of_op_jump h0 hj]
  unfold selectJ
  split
  · exact ⟨_, .inl rfl⟩
  · exact ⟨_, .inr rfl⟩

/-- Settles O11: by evaluation of the six encodings. -/
theorem workedEncodingsAreRight : Obligations.WorkedEncodingsAreRight := by
  unfold Obligations.WorkedEncodingsAreRight
  decide

end Sys2Proof

namespace Sys2Proof.Machine

variable {s : State} {c : Cause}

theorem execSyscall_of_unknown {code : BitVec 20} (h : code ∉ s.cfg.maps.sys.values) :
    execSyscall code s = s.takeFault (.unknownSyscallCode code) := by
  simp only [SyscallMap.values, List.mem_cons, not_or] at h
  simp [execSyscall, h]

/-- A step whose dispatch is a fault entry faults at the instruction's own address. -/
theorem faults_of_step_eq_takeFault (h : step s = s.begun.takeFault c) :
    ∃ t, step s = .next t ∧ Faults s.begun t c s.pc :=
  ⟨_, h.trans (takeFault_begun c), faults_raiseAt _ _⟩

/-- Settles O7: what the decoder answers for each kind of word, and the fault entry of its arm. -/
theorem unknownCodesFaultAtDispatch : Obligations.UnknownCodesFaultAtDispatch := by
  intro s hready hm
  obtain ⟨hr, hc⟩ := hready
  have hstep := step_of_ready hr hc
  refine ⟨fun h0 hf => ?_, fun hop => ?_, fun h0 hf hcode => ?_, exists_decode_of_known_funct,
    exists_decode_of_known_op, fun hj => ?_⟩
  · exact faults_of_step_eq_takeFault (by rw [hstep, decode_of_unknown_funct h0 hf, dispatchWith])
  · exact faults_of_step_eq_takeFault (by rw [hstep, decode_of_unknown_op hop, dispatchWith])
  · have hd : decode s.cfg.maps s.fetchWord = .instr (.syscall (codeOf s.fetchWord)) :=
      IsWordOf.decode_eq ⟨h0, fun f h => hf.trans (Option.some.inj h), rfl⟩ hm (decide_eq_true hcode)
    refine faults_of_step_eq_takeFault ?_
    rw [hstep, hd, dispatchWith, exec, execSyscall_of_unknown (by simpa using hcode)]
  · refine exists_decode_of_op_jump ?_ hj
    obtain ⟨hop, -, -⟩ := hm
    have hne := OpcodeMap.later_ne hop
    simp only [OpcodeMap.values, List.pairwise_cons, List.mem_cons, forall_eq_or_imp] at hne
    obtain ⟨⟨hj0, hjal0, -⟩, -⟩ := hne
    exact hj.elim (fun h => h ▸ hj0) (fun h => h ▸ hjal0)

end Sys2Proof.Machine

/-! ## The execution cycle (O2, O3, O5, O1)

`Effect.runsOnOrEnds` says once how a run stands after an instruction, and `exec_answers` says once
when an instruction answers a next state; O2 and O3 lift the two to the step. -/

namespace Sys2Proof.Machine

variable {s t : State} {i : Instr}

/-! ### The run state -/

theorem step_of_exited {status : Nat} (h : s.run = .exited status) :
    step s = .fault .runExited := by
  simp [step, stepWith, h]

theorem step_of_faulted {c : Cause} {p : Word} (h : s.run = .faulted c p) :
    step s = .fault .runFaulted := by
  simp [step, stepWith, h]

/-- `t` runs on, or its run has ended in one of the two ways of R29. -/
def RunsOnOrEnds (t : State) : Prop :=
  t.run = .running ∨ t.run = .exited 0 ∨ ∃ c p, t.run = .faulted c p

theorem runsOnOrEnds_raiseAt (c : Cause) (p : Word) : RunsOnOrEnds (s.raiseAt c p) :=
  .inr (.inr ⟨c, p, rfl⟩)

/-- An instruction of a running machine writes the run state by `exit` and by a fault alone. -/
theorem Effect.runsOnOrEnds (h : Effect s i t) (hr : s.run = .running) : RunsOnOrEnds t := by
  cases h with
  | exit => exact .inr (.inl rfl)
  | fault => exact runsOnOrEnds_raiseAt _ _
  | nothing | hiLo | jump | storeByte | storeWord | trace => exact .inl hr
  | register | link | readChar => exact .inl (by simpa using hr)
  | printStr => exact .inl (by simpa using hr)
  | printChar => exact .inl (by simpa [servicePrintChar] using hr)

theorem StepEffect.runsOnOrEnds (h : StepEffect s t) (hr : s.run = .running) : RunsOnOrEnds t := by
  cases h with
  | violation | unknownOpcode | unknownFunctionCode => exact runsOnOrEnds_raiseAt _ _
  | instruction i _ _ _ he => exact he.runsOnOrEnds (by simpa using hr)

/-- Settles O2: the step of an ended run, and for a running one the ways a step can go. -/
theorem noStepAfterTheRunEnds : Obligations.NoStepAfterTheRunEnds :=
  fun _ => ⟨fun _ => step_of_exited, fun _ _ => step_of_faulted, fun _ h =>
    have hr := running_of_step h
    ⟨hr, (step_effect h).runsOnOrEnds hr⟩⟩

/-! ### Liveness -/

/-- `r` answers a next state, or `i` is a `read_char` made at `s` when the host never answers, and `r`
is its fault (R165, R262; log 8). -/
def AnswersUnlessSilent (s : State) (i : Instr) (r : Result) : Prop :=
  (∃ t, r = .next t) ∨
  (r = .fault .readCharUnanswered ∧ s.cfg.hostSilentAt = some s.hostDraws ∧
    (i = .readChar ∨ i = .syscall s.cfg.maps.sys.readChar))

theorem answers_next (t : State) : AnswersUnlessSilent s i (.next t) := .inl ⟨t, rfl⟩

/-- A fault of the spec is a next state (log 1). -/
theorem answers_takeFault (c : Cause) : AnswersUnlessSilent s i (s.takeFault c) := .inl ⟨_, rfl⟩

theorem answers_loadInto (rt : RegIx) (ea : Word) (v : Option Word) :
    AnswersUnlessSilent s i (s.loadInto rt ea v) := by
  cases v
  · exact answers_takeFault _
  · exact answers_next _

theorem answers_storeOr (ea : Word) (w : Option State) :
    AnswersUnlessSilent s i (s.storeOr ea w) := by
  cases w
  · exact answers_takeFault _
  · exact answers_next _

theorem answers_servicePrintStr : AnswersUnlessSilent s i (servicePrintStr s) := by
  unfold servicePrintStr
  split
  · exact answers_takeFault _
  · exact answers_next _

theorem answers_serviceReadChar (hi : i = .readChar ∨ i = .syscall s.cfg.maps.sys.readChar) :
    AnswersUnlessSilent s i (serviceReadChar s) := by
  unfold serviceReadChar
  split
  · exact .inr ⟨rfl, ‹_›, hi⟩
  · exact answers_next _

theorem answers_execDiv (rs rt : RegIx) : AnswersUnlessSilent s i (execDiv rs rt s) := by
  unfold execDiv
  split
  · exact answers_takeFault _
  split
  · split
    · exact answers_takeFault _
    · exact answers_next _
  · exact answers_next _

theorem answers_execSyscall (code : BitVec 20) :
    AnswersUnlessSilent s (.syscall code) (execSyscall code s) := by
  unfold execSyscall
  split
  · exact answers_next _
  split
  · exact answers_servicePrintStr
  split
  · exact answers_next _
  split
  case isTrue hcode => exact answers_serviceReadChar (.inr (congrArg _ hcode))
  split
  · exact answers_next _
  split
  · exact answers_next _
  · exact answers_takeFault _

/-- Every instruction answers a next state, but for a `read_char` the host never answers. -/
theorem exec_answers (i : Instr) (s : State) : AnswersUnlessSilent s i (exec i s) := by
  cases i
  case syscall code => exact answers_execSyscall code
  case printStr => exact answers_servicePrintStr
  case readChar => exact answers_serviceReadChar (.inl rfl)
  case div rs rt => exact answers_execDiv rs rt
  case lbu | lw => exact answers_loadInto _ _ _
  case sb | sw => exact answers_storeOr _ _
  all_goals exact answers_next _

/-- Settles O3: a failed check and an unknown code are fault entries, and a decoded instruction
answers as `exec_answers` says. -/
theorem runningMachineAlwaysSteps : Obligations.RunningMachineAlwaysSteps := by
  intro s hr
  cases hc : s.checkInvariants with
  | some kind => exact .inl ⟨_, step_of_violation hr hc⟩
  | none =>
    rw [step_of_ready hr hc]
    cases decode s.cfg.maps s.fetchWord with
    | unknownOpcode | unknownFunctionCode => exact .inl ⟨_, rfl⟩
    | instr i => simpa [AnswersUnlessSilent, dispatchWith] using exec_answers i s.begun

/-! ### The advance of pc -/

/-- The check passes only an aligned pc inside memory (R252). -/
theorem pc_of_checkInvariants (h : s.checkInvariants = none) :
    u32 s.pc % 4 = 0 ∧ u32 s.pc < memCapacity := by
  have halign : u32 s.pc % 4 = 0 := by
    by_contra hne
    simp [checkInvariants_of_misaligned hne] at h
  refine ⟨halign, ?_⟩
  by_contra hge
  simp [checkInvariants_of_outOfRange halign (Nat.le_of_not_lt hge)] at h

/-- The advance of an aligned pc inside memory does not wrap (R115). -/
theorem u32_add_four {p : Word} (hp : u32 p < memCapacity) : u32 (p + 4) = u32 p + 4 := by
  simp only [u32, memCapacity] at *
  bv_omega

/-- Settles O5: the last word of memory is at 65528, and the pc after it fails the range test. -/
theorem sequentialAdvanceNeverWraps : Obligations.SequentialAdvanceNeverWraps := by
  rintro s ⟨-, hc⟩
  obtain ⟨halign, hlt⟩ := pc_of_checkInvariants hc
  have hadv : u32 s.begun.pc = u32 s.pc + 4 := by rw [State.begun_pc, u32_add_four hlt]
  have hle : u32 s.pc ≤ 65528 := by simp only [memCapacity] at hlt; omega
  refine ⟨hle, hadv, by simp only [memCapacity]; omega, fun hlast t _ htr htpc => ?_⟩
  have hpc : t.pc = 65532 :=
    htpc.trans (BitVec.eq_of_toNat_eq (hadv.trans (congrArg (· + 4) hlast)))
  have hcheck : t.checkInvariants = some .pcRange :=
    checkInvariants_of_outOfRange (by rw [hpc]; rfl) (by rw [hpc]; decide)
  exact ⟨_, step_of_violation htr hcheck, hpc ▸ faults_raiseAt _ _⟩

/-! ### The step, clause by clause -/

/-- At an aligned pc the fetched word is the four bytes from pc on (R61). -/
theorem fetchWord_of_aligned (h : u32 s.pc % 4 = 0) :
    s.fetchWord = wordOfBytes s.cfg.byteOrder (s.mem.read (u32 s.pc)) (s.mem.read (u32 s.pc + 1))
      (s.mem.read (u32 s.pc + 2)) (s.mem.read (u32 s.pc + 3)) := by
  have hpc : 4 * (u32 s.pc / 4) = u32 s.pc := by omega
  rw [State.fetchWord, Memory.readWord, hpc]

/-- Settles O1: the fault entry of a failed check, the frame of the begun state, the fetch at an
aligned pc, and the arm of dispatch the decoded word selects. -/
theorem stepRunsTheFetchedInstruction : Obligations.StepRunsTheFetchedInstruction := by
  intro s hr
  refine ⟨fun kind hc => ⟨_, step_of_violation hr hc, faults_raiseAt _ _⟩, fun hc => ?_⟩
  have hstep := step_of_ready hr hc
  obtain ⟨halign, -⟩ := pc_of_checkInvariants hc
  refine ⟨?frame, fetchWord_of_aligned halign, fun i hd => ?instr, fun op hd => ?opcode,
    fun funct hd => ?funct⟩
  case frame => simp [KeepsRegsBut, KeepsHiLo, KeepsMem, KeepsMode]
  case instr => rw [hstep, hd, dispatchWith]
  case opcode => exact faults_of_step_eq_takeFault (by rw [hstep, hd, dispatchWith])
  case funct => exact faults_of_step_eq_takeFault (by rw [hstep, hd, dispatchWith])

end Sys2Proof.Machine

/-! ## The register-form ALU (O13, O14, O15, O12, O16, O17, O18, O19)

An instruction of this family writes a register or HI:LO, and a divide has one lemma per outcome; what
is left of a statement is the written value, a fact about words. `decodesR_of_row` is the decoder's half
of every statement. -/

namespace Sys2Proof.Machine

variable {s : State} {rs rt : RegIx} {a b : Word}

/-! ### Every word of a row decodes to its instruction -/

/-- Under maps R88 allows, every R-form word with the function code `f` decodes to the instruction that
`mk` makes of its fields, when that is a well-formed instruction of `f`'s row. -/
theorem decodesR_of_row {m : Maps} {f : BitVec 6} {mk : Word → Instr} (hm : m.WellFormed)
    (hrow : ∀ w, Laws.Selector.opcode m (mk w) = 0 ∧ Laws.Selector.funct m (mk w) = some f ∧
      HasOperands m w (mk w) ∧ (mk w).WellFormed m = true) : DecodesR m f mk := by
  intro w h0 hf
  obtain ⟨hop, hfunct, hoperands, hwf⟩ := hrow w
  have hword : IsWordOf m w (mk w) :=
    ⟨h0.trans hop.symm, fun _ hg => hf.trans (Option.some.inj (hfunct.symm.trans hg)), hoperands⟩
  exact hword.decode_eq hm hwf

/-! ### Sums and differences -/

/-- The sum modulo 2^32 as a number (R131). -/
theorem add_eq_ofNat_mod (a b : Word) : a + b = BitVec.ofNat 32 ((u32 a + u32 b) % 2 ^ 32) := by
  apply BitVec.eq_of_toNat_eq
  simp

/-- The difference is the pattern of the signed difference (R132). -/
theorem sub_eq_bits32 (a b : Word) : a - b = bits32 (s32 a - s32 b) := by
  apply BitVec.eq_of_toInt_eq
  rw [BitVec.toInt_sub, BitVec.toInt_ofInt]

/-! ### The product -/

/-- The product of two signed words fits 64 bits (R133). -/
theorem signedProduct_toInt (a b : Word) : (signedProduct a b).toInt = s32 a * s32 b := by
  have hle : s32 a * s32 b ≤ 2 ^ 62 := BitVec.toInt_mul_toInt_le
  have hge : -2 ^ 62 ≤ s32 a * s32 b := BitVec.le_toInt_mul_toInt
  exact BitVec.toInt_ofInt_eq_self (by decide) (by omega) (by omega)

theorem productHi_append_productLo (a b : Word) :
    (productHi a b ++ productLo a b : BitVec 64) = signedProduct a b := by
  rw [productHi, productLo,
    BitVec.extractLsb'_append_extractLsb'_eq_extractLsb' (start₂ := 32) (start₁ := 0) rfl]
  exact BitVec.extractLsb'_eq_self

/-! ### Quotient and remainder -/

theorem divOverflows_iff : divOverflows a b = true ↔ a = 0x80000000 ∧ b = 0xFFFFFFFF := by
  rw [divOverflows, decide_eq_true_iff, ← BitVec.toInt_inj (x := a), ← BitVec.toInt_inj (x := b)]
  rfl

theorem s32_eq_zero_iff : s32 b = 0 ↔ b = 0 := by
  rw [← BitVec.toInt_inj]
  rfl

/-- Every quotient but that of the overflowing divide fits a word (R134). -/
theorem s32_quotient (h : ¬ (a = 0x80000000 ∧ b = 0xFFFFFFFF)) :
    s32 (quotient a b) = (s32 a).tdiv (s32 b) := by
  rw [quotient, ← BitVec.toInt_sdiv_of_ne_or_ne a b (not_and_or.1 h)]
  exact congrArg s32 BitVec.ofInt_toInt

/-- Every remainder fits a word. -/
theorem s32_remainder (a b : Word) : s32 (remainder a b) = (s32 a).tmod (s32 b) := by
  rw [remainder, ← BitVec.toInt_srem]
  exact congrArg s32 BitVec.ofInt_toInt

theorem natAbs_tmod_lt (a : Int) {b : Int} (hb : b ≠ 0) : (a.tmod b).natAbs < b.natAbs := by
  rw [Int.natAbs_tmod]
  exact Nat.mod_lt _ (Int.natAbs_pos.2 hb)

/-- A truncated remainder is zero or has the sign of the dividend (R9). -/
theorem tmod_eq_zero_or_neg_iff (a b : Int) : a.tmod b = 0 ∨ (a.tmod b < 0 ↔ a < 0) := by
  have hsign := Int.sign_tmod a b
  split at hsign
  · exact .inl (Int.sign_eq_zero_iff_zero.1 hsign)
  · exact .inr (by rw [← Int.sign_eq_neg_one_iff_neg, hsign, Int.sign_eq_neg_one_iff_neg])

/-! ### Shifts -/

theorem u32_shiftLeft (a : Word) (n : ShiftCount) :
    u32 (shiftLeft a n) = u32 a * 2 ^ n.val % 2 ^ 32 := by
  rw [shiftLeft, u32, BitVec.toNat_shiftLeft, Nat.shiftLeft_eq]

/-- Zeros shifted in divide the unsigned value (R142). -/
theorem u32_shiftRight_zero (a : Word) (n : ShiftCount) :
    u32 (shiftRight .zero a n) = u32 a / 2 ^ n.val := by
  rw [shiftRight, u32, BitVec.toNat_ushiftRight, Nat.shiftRight_eq_div_pow]

/-- The sign shifted in divides the signed value, rounding down (R142). -/
theorem s32_shiftRight_sign (a : Word) (n : ShiftCount) :
    s32 (shiftRight .sign a n) = s32 a / 2 ^ n.val := by
  rw [shiftRight, s32, BitVec.toInt_sshiftRight, Int.shiftRight_eq_div_pow]
  norm_cast

/-! ### The outcomes of a divide (R134) -/

theorem exec_div_of_zero (h : s.x rt = 0) : exec (.div rs rt) s = s.takeFault .divideByZero :=
  if_pos (s32_eq_zero_iff.2 h)

/-- The overflowing divide faults under the policy `fault`. -/
theorem exec_div_of_overflow_fault (hrs : s.x rs = 0x80000000) (hrt : s.x rt = 0xFFFFFFFF)
    (hp : s.cfg.divOverflow = .fault) :
    exec (.div rs rt) s = s.takeFault .divideOverflow := by
  simp [exec, execDiv, divOverflows_iff, s32_eq_zero_iff, hrs, hrt, hp]

/-- The overflowing divide wraps under the policy `wrap`. -/
theorem exec_div_of_overflow_wrap (hrs : s.x rs = 0x80000000) (hrt : s.x rt = 0xFFFFFFFF)
    (hp : s.cfg.divOverflow = .wrap) :
    exec (.div rs rt) s = .next (s.setHiLo 0 0x80000000) := by
  simp [exec, execDiv, divOverflows_iff, s32_eq_zero_iff, hrs, hrt, hp]

/-- Every other divide writes the remainder and the quotient. -/
theorem exec_div_of_exact (h0 : s.x rt ≠ 0)
    (hov : ¬ (s.x rs = 0x80000000 ∧ s.x rt = 0xFFFFFFFF)) :
    exec (.div rs rt) s =
      .next (s.setHiLo (remainder (s.x rs) (s.x rt)) (quotient (s.x rs) (s.x rt))) := by
  rw [exec, execDiv, if_neg (mt s32_eq_zero_iff.1 h0), if_neg (mt divOverflows_iff.1 hov)]

/-! ### The statements -/

/-- Settles O13: the two halves written are those of the signed product, which fits 64 bits. -/
theorem mulWritesTheExactProduct : Obligations.MulWritesTheExactProduct := by
  refine ⟨rfl, fun m hm => decodesR_of_row hm fun _ => ⟨rfl, rfl, ⟨rfl, rfl⟩, rfl⟩,
    fun s rs rt => ⟨_, _, _, rfl, writesHiLo_setHiLo _ _, ?product⟩⟩
  case product => rw [productHi_append_productLo, signedProduct_toInt]

/-- Settles O14: by the four outcomes of a divide. -/
theorem divWritesQuotientAndRemainder : Obligations.DivWritesQuotientAndRemainder := by
  refine ⟨rfl, fun m hm => decodesR_of_row hm fun _ => ⟨rfl, rfl, ⟨rfl, rfl⟩, rfl⟩,
    fun s rs rt => ⟨fun h0 => ?zero, fun hrs hrt hp => ?fault, fun hrs hrt hp => ?wrap,
      fun h0 hov => ?exact⟩⟩
  case zero => exact ⟨_, exec_div_of_zero h0, faults_raiseAt _ _⟩
  case fault => exact ⟨_, exec_div_of_overflow_fault hrs hrt hp, faults_raiseAt _ _⟩
  case wrap => exact ⟨_, exec_div_of_overflow_wrap hrs hrt hp, writesHiLo_setHiLo _ _⟩
  case exact =>
    exact ⟨_, _, _, exec_div_of_exact h0 hov, writesHiLo_setHiLo _ _, s32_quotient hov,
      s32_remainder _ _⟩

/-- Settles O15: the laws of truncated division for the exact quotient and remainder. -/
theorem divideIdentityHolds : Obligations.DivideIdentityHolds := by
  intro s t rs rt h0 hov h
  rw [exec_div_of_exact h0 hov] at h
  cases h
  rw [State.setHiLo_lo, State.setHiLo_hi, s32_quotient hov, s32_remainder]
  exact ⟨Int.tdiv_mul_add_tmod _ _, natAbs_tmod_lt _ (mt s32_eq_zero_iff.1 h0),
    tmod_eq_zero_or_neg_iff _ _⟩

/-- Settles O12: the written sum and difference as numbers. -/
theorem addAndSubWrap : Obligations.AddAndSubWrap := by
  refine ⟨⟨rfl, rfl⟩, fun m hm => ⟨?_, ?_⟩,
    fun s rd rs rt => ⟨⟨_, rfl, ?sum⟩, ⟨_, rfl, ?difference⟩⟩⟩
  case sum =>
    rw [← add_eq_ofNat_mod]
    exact writesReg_setX _ _
  case difference =>
    rw [← sub_eq_bits32]
    exact writesReg_setX _ _
  all_goals exact decodesR_of_row hm fun _ => ⟨rfl, rfl, ⟨rfl, rfl, rfl⟩, rfl⟩

/-- Settles O16: both are register writes. -/
theorem moveFromHiLoCopies : Obligations.MoveFromHiLoCopies := by
  refine ⟨⟨rfl, rfl⟩, fun m hm => ⟨?_, ?_⟩,
    fun s rd => ⟨⟨_, rfl, writesReg_setX _ _⟩, ⟨_, rfl, writesReg_setX _ _⟩⟩⟩
  all_goals exact decodesR_of_row hm fun _ => ⟨rfl, rfl, rfl, rfl⟩

/-- Settles O17: each is a register write, of a value the library knows bit by bit. -/
theorem bitwiseRegisterFormIsBitByBit : Obligations.BitwiseRegisterFormIsBitByBit := by
  refine ⟨⟨rfl, rfl, rfl, rfl⟩, fun m hm => ⟨?_, ?_, ?_, ?_⟩, fun s rd rs rt =>
    ⟨⟨_, _, rfl, writesReg_setX _ _, fun k _ => BitVec.getLsbD_and⟩,
      ⟨_, _, rfl, writesReg_setX _ _, fun k _ => BitVec.getLsbD_or⟩,
      ⟨_, _, rfl, writesReg_setX _ _, fun k hk => ?nor⟩,
      ⟨_, _, rfl, writesReg_setX _ _, fun k _ => BitVec.getLsbD_xor⟩⟩⟩
  case nor => rw [BitVec.getLsbD_not, BitVec.getLsbD_or, decide_eq_true hk, Bool.true_and]
  all_goals exact decodesR_of_row hm fun _ => ⟨rfl, rfl, ⟨rfl, rfl, rfl⟩, rfl⟩

/-- Settles O18: the written value as a number. -/
theorem shiftLeftFillsWithZeros : Obligations.ShiftLeftFillsWithZeros :=
  ⟨rfl, fun _ hm => decodesR_of_row hm fun _ => ⟨rfl, rfl, ⟨rfl, rfl, rfl⟩, rfl⟩,
    fun _ _ _ _ => ⟨_, _, rfl, writesReg_setX _ _, u32_shiftLeft _ _⟩⟩

/-- Settles O19: the written value as a number, by the fill. -/
theorem shiftRightFillsAsConfigured : Obligations.ShiftRightFillsAsConfigured := by
  refine ⟨rfl, fun m hm => decodesR_of_row hm fun _ => ⟨rfl, rfl, ⟨rfl, rfl, rfl⟩, rfl⟩,
    fun s rd rt n => ⟨_, _, rfl, writesReg_setX _ _, fun hfill => ?zero, fun hfill => ?sign⟩⟩
  case zero => rw [hfill, u32_shiftRight_zero]
  case sign => rw [hfill, s32_shiftRight_sign]

end Sys2Proof.Machine

/-! ## `jr`, `syscall` and the services (O39, O24, O37, O38, O40, O41, O42)

A service has two spellings, its own constructor and `syscall` with its code. `decodesService_of_code` is
the decoder's half of every statement and `exec_eq_of_mem_spellings` carries what the constructor does
over to the other spelling; what is left is one lemma about the service itself. -/

namespace Sys2Proof

/-! ### The code of a `syscall` word -/

/-- The code in the words of `i`, if they are `syscall` words (R87, R93). -/
def syscallCode (m : SyscallMap) : Instr → Option (BitVec 20)
  | .syscall code => some code
  | .exit => some m.exit
  | .printStr => some m.printStr
  | .printChar => some m.printChar
  | .readChar => some m.readChar
  | .startTracing => some m.startTracing
  | .stopTracing => some m.stopTracing
  | _ => none

theorem syscallCode_syscallInstr (m : SyscallMap) (code : BitVec 20) :
    syscallCode m (syscallInstr m code) = some code := by
  unfold syscallInstr
  iterate 6
    split
    case isTrue h => exact congrArg some h.symm
  rfl

end Sys2Proof

namespace Sys2Proof.Machine

variable {m : Maps} {s : State} {i service : Instr} {code : BitVec 20}

/-- Under maps R88 allows, every `syscall` word with the code of a well-formed instruction decodes to
it. -/
theorem decodesService_of_code (hm : m.WellFormed) (hi : i.WellFormed m = true)
    (hc : syscallCode m.sys i = some code) : DecodesService m code i := by
  intro w h0 hf hw
  cases i
  case syscall | exit | printStr | printChar | readChar | startTracing | stopTracing =>
    cases hc
    exact IsWordOf.decode_eq ⟨h0, fun _ h => hf.trans (Option.some.inj h), hw.symm⟩ hm hi
  all_goals cases hc

/-- The one well-formed instruction with a given code is the one the decoder selects for it. -/
theorem syscallInstr_eq_of_code (hm : m.WellFormed) (hi : i.WellFormed m = true)
    (hc : syscallCode m.sys i = some code) : syscallInstr m.sys code = i := by
  have hselected := decodesService_of_code hm (syscallInstr_wellFormed code)
    (syscallCode_syscallInstr m.sys code) (wordSyscall m code) (by simp) (by simp) (by simp)
  have hgiven := decodesService_of_code hm hi hc (wordSyscall m code) (by simp) (by simp) (by simp)
  exact Decoded.instr.inj (hselected.symm.trans hgiven)

/-- `syscall` tests its code for a service as the decoder does (R93, R161). -/
theorem exec_syscallInstr (s : State) (code : BitVec 20) :
    exec (syscallInstr s.cfg.maps.sys code) s = exec (.syscall code) s := by
  change _ = execSyscall code s
  unfold syscallInstr execSyscall
  iterate 6
    split
    · rfl
  simp [exec, execSyscall, *]

/-- `syscall` with the code of a service does what the service does (R161). -/
theorem exec_syscall_of_code (hm : s.cfg.maps.WellFormed) (hi : i.WellFormed s.cfg.maps = true)
    (hc : syscallCode s.cfg.maps.sys i = some code) : exec (.syscall code) s = exec i s := by
  rw [← exec_syscallInstr, syscallInstr_eq_of_code hm hi hc]

/-- The two spellings of a service do the same (R93). -/
theorem exec_eq_of_mem_spellings (hm : s.cfg.maps.WellFormed)
    (hs : service.WellFormed s.cfg.maps = true) (hc : syscallCode s.cfg.maps.sys service = some code)
    (hi : i ∈ [service, .syscall code]) : exec i s = exec service s := by
  obtain rfl | rfl : i = service ∨ i = .syscall code := by simpa using hi
  · rfl
  · exact exec_syscall_of_code hm hs hc

/-! ### `print_str` -/

/-- An argument that is no address in memory fails the range check at once (R163). -/
theorem stringAt_of_outOfRange {a : Word} (h : memCapacity ≤ u32 a) : stringAt s a = .error a := by
  simp [stringAt, stringFrom, State.memRead8_of_ge h]

/-- A string whose NUL is in memory is read whole (R163). -/
theorem stringAt_of_terminated {n : Nat} {a : Word} (hn : u32 a + n < memCapacity)
    (hz : ∀ k < n, s.mem.read (u32 a + k) ≠ 0) (h0 : s.mem.read (u32 a + n) = 0) :
    stringAt s a = .ok ((List.range n).map fun k => s.mem.read (u32 a + k)) :=
  stringFrom_ok n (by omega) hn hz h0

/-- A string with no NUL in memory fails the range check at the end of memory (R163). -/
theorem stringAt_of_unterminated {a : Word} (ha : u32 a < memCapacity)
    (hz : ∀ b, u32 a ≤ b → b < memCapacity → s.mem.read b ≠ 0) : stringAt s a = .error 65532 :=
  stringFrom_error (memCapacity - u32 a) (by omega) (by omega)
    fun k hk => hz (u32 a + k) (by omega) (by omega)

theorem exec_printStr_of_ok {bs : List Byte} (h : stringAt s (s.x argReg) = .ok bs) :
    exec .printStr s = .next (printStrResult (s.send (.printStr bs))) := by
  rw [exec, execPrintStr, servicePrintStr, h]

theorem exec_printStr_of_error {a : Word} (h : stringAt s (s.x argReg) = .error a) :
    exec .printStr s = s.takeFault (.memoryOutOfRange a) := by
  rw [exec, execPrintStr, servicePrintStr, h]

/-- A string that fails the range check is a fault entry, with no byte sent (R163). -/
theorem faults_printStr_of_error {a : Word} (h : stringAt s (s.x argReg) = .error a) :
    ∃ t, exec .printStr s = .next t ∧ Faults s t (.memoryOutOfRange a) (s.pc - 4) :=
  ⟨_, exec_printStr_of_error h, faults_raiseAt _ _⟩

theorem sends_printStr (hp : s.cfg.printStrResult = .unchanged) (bs : List Byte) :
    Sends s (printStrResult (s.send (.printStr bs))) [.printStr bs] := by
  simp only [printStrResult, State.send_cfg, hp]
  exact sends_send _

theorem asks_printStr (hp : s.cfg.printStrResult = .draw) (bs : List Byte) :
    Asks s (printStrResult (s.send (.printStr bs))) (.printStr bs)
      (Config.freePrintStrResult s.hostDraws) := by
  simp only [printStrResult, State.send_cfg, hp]
  exact asks_send_setX _ _

/-- Settles O39: by what the scan of memory answers in each of the three cases. -/
theorem printStrSendsTheString : Obligations.PrintStrSendsTheString := by
  refine ⟨rfl, fun m hm => decodesService_of_code hm rfl rfl, fun s hm i hi => ?_⟩
  rw [exec_eq_of_mem_spellings hm rfl rfl hi]
  refine ⟨fun n hn hz h0 => ?terminated, fun ha hz => ?unterminated, fun ha => ?outOfRange⟩
  case terminated =>
    exact ⟨_, exec_printStr_of_ok (stringAt_of_terminated hn hz h0),
      fun hp => sends_printStr hp _, fun hp => asks_printStr hp _⟩
  case unterminated => exact faults_printStr_of_error (stringAt_of_unterminated ha hz)
  case outOfRange => exact faults_printStr_of_error (stringAt_of_outOfRange ha)

/-! ### `jr` -/

/-- Settles O24: a write of pc, and the failed check of the next step. -/
theorem jumpRegisterTakesItsTarget : Obligations.JumpRegisterTakesItsTarget := by
  refine ⟨rfl, fun m hm => decodesR_of_row hm fun _ => ⟨rfl, rfl, rfl, rfl⟩,
    fun s rs => ⟨_, rfl, writesPc_setPc _, fun hr hbad => ?_⟩⟩
  obtain ⟨hmisaligned, hrange⟩ := badPcFaultsAtTheNextStep (s.setPc (s.x rs)) hr
  by_cases halign : u32 (s.x rs) % 4 = 0
  · obtain ⟨t, hstep, hfault⟩ := hrange halign (hbad.resolve_left (not_not.2 halign))
    exact ⟨t, _, hstep, .inr rfl, hfault⟩
  · obtain ⟨t, hstep, hfault⟩ := hmisaligned halign
    exact ⟨t, _, hstep, .inl rfl, hfault⟩

/-! ### `syscall` -/

/-- Settles O37: a service by its code, and the fault entry for a code that names none. -/
theorem syscallRunsItsServiceOrFaults : Obligations.SyscallRunsItsServiceOrFaults := by
  refine ⟨rfl, fun m hm => ⟨⟨?_, ?_, ?_, ?_, ?_, ?_, fun code hcode => ?unknownWord⟩, ?run⟩⟩
  case unknownWord => exact decodesService_of_code hm (decide_eq_true hcode) rfl
  case run =>
    rintro s rfl
    refine ⟨?_, ?_, ?_, ?_, ?_, ?_, fun code hcode =>
      ⟨_, execSyscall_of_unknown hcode, faults_raiseAt _ _⟩⟩
    all_goals exact exec_syscall_of_code hm rfl rfl
  all_goals exact decodesService_of_code hm rfl rfl

/-! ### The other services -/

/-- Settles O38: by what the service does, and the step of an ended run. -/
theorem exitEndsTheRun : Obligations.ExitEndsTheRun := by
  refine ⟨rfl, fun m hm => decodesService_of_code hm rfl rfl, fun s hm i hi => ?_⟩
  rw [exec_eq_of_mem_spellings hm rfl rfl hi]
  exact ⟨_, rfl, exits_serviceExit, step_of_exited rfl⟩

theorem lowByte_eq_ofNat_mod (v : Word) : lowByte v = BitVec.ofNat 8 (u32 v % 256) := by
  apply BitVec.eq_of_toNat_eq
  simp [lowByte]

/-- Settles O40: by what the service does, and the low byte as a number. -/
theorem printCharSendsTheLowByte : Obligations.PrintCharSendsTheLowByte := by
  refine ⟨rfl, fun m hm => decodesService_of_code hm rfl rfl, fun s hm i hi => ?_⟩
  rw [exec_eq_of_mem_spellings hm rfl rfl hi, ← lowByte_eq_ofNat_mod]
  exact ⟨_, rfl, asks_servicePrintChar⟩

/-- Settles O41: by the two outcomes of the service. -/
theorem readCharWaitsForTheHost : Obligations.ReadCharWaitsForTheHost := by
  refine ⟨rfl, fun m hm => decodesService_of_code hm rfl rfl, fun s hm i hi => ?_⟩
  rw [exec_eq_of_mem_spellings hm rfl rfl hi, exec, execReadChar, serviceReadChar]
  exact ⟨fun h => ⟨_, if_neg h, asks_send_setX _ _⟩, fun h => if_pos h⟩

/-- Settles O42: by what the two services do. -/
theorem tracingServicesSetTheFlag : Obligations.TracingServicesSetTheFlag := by
  refine ⟨⟨rfl, rfl⟩, fun m hm => ⟨decodesService_of_code hm rfl rfl,
    decodesService_of_code hm rfl rfl⟩, fun s hm => ⟨fun i hi => ?start, fun i hi => ?stop⟩⟩
  case start =>
    rw [exec_eq_of_mem_spellings hm rfl rfl hi]
    exact ⟨_, rfl, setsTrace_serviceStartTracing⟩
  case stop =>
    rw [exec_eq_of_mem_spellings hm rfl rfl hi]
    exact ⟨_, rfl, setsTrace_serviceStopTracing⟩

end Sys2Proof.Machine

/-! ## The immediate-form ALU (O20, O21)

Every instruction of this family writes x[rt]; what is left of a statement is the written value, a fact
about the extended immediate. `decodesOp_of_row` is the decoder's half of both statements. -/

namespace Sys2Proof.Machine

variable {k : Nat}

/-! ### Every word of a row decodes to its instruction -/

/-- Under maps R88 allows, every word with the opcode `op` decodes to the instruction that `mk` makes of
its fields, when that is a well-formed instruction of `op`'s row. -/
theorem decodesOp_of_row {m : Maps} {op : BitVec 6} {mk : Word → Instr} (hm : m.WellFormed)
    (hrow : ∀ w, Laws.Selector.opcode m (mk w) = op ∧ Laws.Selector.funct m (mk w) = none ∧
      HasOperands m w (mk w) ∧ (mk w).WellFormed m = true) : DecodesOp m op mk := by
  intro w hw
  obtain ⟨hop, hfunct, hoperands, hwf⟩ := hrow w
  have hword : IsWordOf m w (mk w) :=
    ⟨hw.trans hop.symm, fun _ hf => (nomatch hfunct.symm.trans hf), hoperands⟩
  exact hword.decode_eq hm hwf

/-! ### The extended immediate -/

/-- The sum with the sign-extended immediate is the pattern of the signed sum (R190, D11). -/
theorem add_sextImm_eq_bits32 (a : Word) (imm : BitVec 16) :
    a + sextImm imm = bits32 (s32 a + imm.toInt) := by
  rw [bits32, BitVec.ofInt_add, s32, BitVec.ofInt_toInt, sextImm, BitVec.signExtend]

/-- The zero extension keeps the bits of the immediate and has 0 above them (R84). -/
theorem getLsbD_zextImm (imm : BitVec 16) (hk : k < 32) :
    (zextImm imm).getLsbD k = (decide (k < 16) && imm.getLsbD k) := by
  rw [zextImm, BitVec.getLsbD_setWidth, decide_eq_true hk, Bool.true_and]
  by_cases h16 : k < 16
  · rw [decide_eq_true h16, Bool.true_and]
  · rw [decide_eq_false h16, Bool.false_and, BitVec.getLsbD_of_ge imm k (not_lt.1 h16)]

/-! ### The statements -/

/-- Settles O20: a register write, of the sum as a number. -/
theorem addImmediateSignExtends : Obligations.AddImmediateSignExtends := by
  refine ⟨rfl, fun m hm => decodesOp_of_row hm fun _ => ⟨rfl, rfl, ⟨rfl, rfl, rfl⟩, rfl⟩,
    fun s rt rs imm => ⟨_, rfl, ?sum⟩⟩
  case sum =>
    rw [← add_sextImm_eq_bits32]
    exact writesReg_setX _ _

/-- Settles O21: each is a register write, of a value the library knows bit by bit in the zero-extended
immediate. -/
theorem logicImmediateZeroExtends : Obligations.LogicImmediateZeroExtends := by
  refine ⟨⟨rfl, rfl, rfl⟩, fun m hm => ⟨?_, ?_, ?_⟩, fun s rt rs imm =>
    ⟨⟨_, _, rfl, writesReg_setX _ _, fun k hk => ?and⟩,
      ⟨_, _, rfl, writesReg_setX _ _, fun k hk => ?or⟩,
      ⟨_, _, rfl, writesReg_setX _ _, fun k hk => ?xor⟩⟩⟩
  case and => rw [BitVec.getLsbD_and, getLsbD_zextImm imm hk]
  case or => rw [BitVec.getLsbD_or, getLsbD_zextImm imm hk]
  case xor => rw [BitVec.getLsbD_xor, getLsbD_zextImm imm hk]
  all_goals exact decodesOp_of_row hm fun _ => ⟨rfl, rfl, ⟨rfl, rfl, rfl⟩, rfl⟩

end Sys2Proof.Machine

/-! ## The conditional branches (O22, O23)

Every instruction of this family is `branchIf` of its condition; what is left of a statement is the taken
target as a number. `writesPc_branchIf_decide` says so once for any condition, and `decodesOp_of_row` is the
decoder's half of both statements. -/

namespace Sys2Proof.Machine

/-! ### The taken target -/

/-- The offset is 4·imm of the signed immediate, modulo 2^32 (R84). -/
theorem branchOffset_eq_bits32 (imm : BitVec 16) : branchOffset imm = bits32 (4 * imm.toInt) := by
  have hfour : BitVec.twoPow 32 2 = bits32 4 := by decide
  rw [branchOffset, BitVec.shiftLeft_eq_mul_twoPow, hfour, sextImm, BitVec.signExtend, ← BitVec.ofInt_mul,
    Int.mul_comm]

/-- The taken target of a branch at `P` is P + 4 + 4·imm modulo 2^32 (R200). -/
theorem branchTarget_eq_bits32 (P : Word) (imm : BitVec 16) :
    branchTarget (P + 4) imm = bits32 (u32 P + 4 + 4 * imm.toInt) := by
  have hnext : P + 4 = bits32 (u32 P + 4) := by
    rw [bits32, BitVec.ofInt_add, BitVec.ofInt_natCast, BitVec.ofNat_toNat, BitVec.setWidth_eq]
    rfl
  rw [branchTarget, branchOffset_eq_bits32, hnext, ← BitVec.ofInt_add]

/-- What a branch at `P` on the condition `c` does (R200). -/
theorem writesPc_branchIf_decide {s : State} {P : Word} (hpc : s.pc = P + 4) (c : Prop) [Decidable c]
    (imm : BitVec 16) :
    WritesPc s (s.branchIf (decide c) imm)
      (if c then bits32 (u32 P + 4 + 4 * imm.toInt) else P + 4) := by
  have h := writesPc_branchIf (s := s) (decide c) imm
  rw [hpc, branchTarget_eq_bits32] at h
  simpa only [decide_eq_true_eq] using h

/-! ### The statements -/

/-- Settles O22: each is a branch on its condition. -/
theorem branchOnEqualityTakesItsTarget : Obligations.BranchOnEqualityTakesItsTarget := by
  refine ⟨⟨rfl, rfl⟩, fun m hm => ⟨?_, ?_⟩, fun s P rs rt imm hpc =>
    ⟨⟨_, rfl, writesPc_branchIf_decide hpc _ imm⟩, ⟨_, rfl, writesPc_branchIf_decide hpc _ imm⟩⟩⟩
  all_goals exact decodesOp_of_row hm fun _ => ⟨rfl, rfl, ⟨rfl, rfl, rfl⟩, rfl⟩

/-- Settles O23: each is a branch on its condition. -/
theorem branchOnSignTakesItsTarget : Obligations.BranchOnSignTakesItsTarget := by
  refine ⟨⟨rfl, rfl, rfl, rfl⟩, fun m hm => ⟨?_, ?_, ?_, ?_⟩, fun s P rs imm hpc =>
    ⟨⟨_, rfl, writesPc_branchIf_decide hpc _ imm⟩, ⟨_, rfl, writesPc_branchIf_decide hpc _ imm⟩,
      ⟨_, rfl, writesPc_branchIf_decide hpc _ imm⟩, ⟨_, rfl, writesPc_branchIf_decide hpc _ imm⟩⟩⟩
  all_goals exact decodesOp_of_row hm fun _ => ⟨rfl, rfl, ⟨rfl, rfl⟩, rfl⟩

end Sys2Proof.Machine

/-! ## Loads and stores (O26, O27, O28)

Within the range each of the four has one lemma about its next state, and outside it all four are the same
fault entry (`faults_of_outOfRange`). What is left of a store's statement is which byte a read finds after the
write, said for every address by `Memory.read_write` and `Memory.read_writeWord`. -/

namespace Sys2Proof.Machine

variable {s : State} {rt rs : RegIx} {imm : BitVec 16} {m : Memory}

/-! ### A read after a write, at any address -/

/-- A read after a byte write (R51). -/
theorem Memory.read_write (hm : m.wf = true) (k : Nat) (b : Byte) (a : Nat) :
    (m.write k b).read a = if a = k then b else m.read a := by
  split
  case isTrue h => exact h ▸ Memory.read_write_same k b hm
  case isFalse h => exact Memory.read_write_ne b h

/-- A read after a word write: byte `a mod 4` of the word, or what was there before (R51, R52). -/
theorem Memory.read_writeWord (hm : m.wf = true) (o : ByteOrder) (k : Nat) (v : Word) (a : Nat) :
    (m.writeWord o k v).read a = if a / 4 = k then byteAt o (a % 4) v else m.read a := by
  split
  case isTrue h =>
    have hsplit : a = 4 * k + a % 4 := by omega
    conv_lhs => rw [hsplit]
    exact Memory.read_writeWord_same o k v (Nat.mod_lt a (by decide)) hm
  case isFalse h => exact Memory.read_writeWord_ne o v h

/-! ### The instructions in range -/

/-- An `lbu` in range loads the zero-extended byte at the effective address (R221). -/
theorem exec_lbu_of_lt (h : u32 (s.effAddr rs imm) < memCapacity) :
    exec (.lbu rt rs imm) s = .next (s.setX rt (zextByte (s.mem.read (u32 (s.effAddr rs imm))))) := by
  rw [exec, execLbu, State.memRead8_of_lt h, Option.map_some, State.loadInto]

/-- An `lw` in range loads the word that contains the effective address (R222). -/
theorem exec_lw_of_lt (h : u32 (s.effAddr rs imm) < memCapacity) :
    exec (.lw rt rs imm) s =
      .next (s.setX rt (s.mem.readWord s.cfg.byteOrder (u32 (s.effAddr rs imm) / 4))) := by
  rw [exec, execLw, State.memRead32_of_lt h, State.loadInto]

/-- An `sb` in range stores the low byte of `x[rt]` at the effective address (R223). -/
theorem exec_sb_of_lt (h : u32 (s.effAddr rs imm) < memCapacity) :
    exec (.sb rt rs imm) s =
      .next { s with mem := s.mem.write (u32 (s.effAddr rs imm)) (lowByte (s.x rt)) } := by
  rw [exec, execSb, State.memWrite8_of_lt _ h, State.storeOr]

/-- The zero extension keeps the byte's value (R221). -/
theorem u32_zextByte (b : Byte) : u32 (zextByte b) = b.toNat :=
  BitVec.toNat_setWidth_of_le (by decide)

/-! ### The instructions out of range -/

/-- A load or store whose effective address is out of range is the fault entry (D8). -/
theorem exec_of_outOfRange (h : memCapacity ≤ u32 (s.effAddr rs imm)) :
    ∀ i ∈ [Instr.lbu rt rs imm, .lw rt rs imm, .sb rt rs imm, .sw rt rs imm],
      exec i s = s.takeFault (.memoryOutOfRange (s.effAddr rs imm)) := by
  simp only [List.forall_mem_cons]
  refine ⟨?lbu, ?lw, ?sb, ?sw, List.forall_mem_nil _⟩
  case lbu => rw [exec, execLbu, State.memRead8_of_ge h, Option.map_none, State.loadInto]
  case lw => rw [exec, execLw, State.memRead32_of_ge h, State.loadInto]
  case sb => rw [exec, execSb, State.memWrite8_of_ge _ h, State.storeOr]
  case sw => rw [exec, execSw, State.memWrite32_of_ge _ h, State.storeOr]

/-- What the fault of a load or store leaves (R257). -/
theorem faults_of_outOfRange (rt : RegIx) (h : memCapacity ≤ u32 (s.effAddr rs imm)) {i : Instr}
    (hi : i ∈ [Instr.lbu rt rs imm, .lw rt rs imm, .sb rt rs imm, .sw rt rs imm]) :
    ∃ t, exec i s = .next t ∧ Faults s t (.memoryOutOfRange (s.effAddr rs imm)) (s.pc - 4) :=
  ⟨_, exec_of_outOfRange h i hi, faults_raiseAt _ _⟩

/-! ### The statements -/

/-- Settles O26: each is a register write in range and the fault entry out of range. -/
theorem loadsReadMemory : Obligations.LoadsReadMemory := by
  refine ⟨⟨rfl, rfl⟩, fun m hm => ⟨?_, ?_⟩, ?_⟩
  iterate 2 exact decodesOp_of_row hm fun _ => ⟨rfl, rfl, ⟨rfl, rfl, rfl⟩, rfl⟩
  rintro s rt rs imm _ rfl
  refine ⟨add_sextImm_eq_bits32 _ _, fun hlt => ⟨?lbu, _, exec_lw_of_lt hlt, ?lw⟩,
    fun hge i hi => ?fault⟩
  case lbu => exact ⟨_, _, exec_lbu_of_lt hlt, writesReg_setX _ _, u32_zextByte _⟩
  case lw =>
    rw [Nat.mul_comm]
    exact writesReg_setX _ _
  case fault => exact faults_of_outOfRange rt hge (List.mem_of_mem_take (i := 2) hi)

/-- Settles O27: a byte write in range and the fault entry out of range. -/
theorem storeByteWritesOneByte : Obligations.StoreByteWritesOneByte := by
  refine ⟨rfl, fun m hm => decodesOp_of_row hm fun _ => ⟨rfl, rfl, ⟨rfl, rfl, rfl⟩, rfl⟩, ?_⟩
  rintro s rt rs imm _ rfl
  refine ⟨add_sextImm_eq_bits32 _ _,
    fun hlt hwf => ⟨_, exec_sb_of_lt hlt, writesMemOnly_mem _, fun a => ?byte⟩,
    fun hge => faults_of_outOfRange rt hge (by simp)⟩
  case byte => rw [Memory.read_write hwf, lowByte_eq_ofNat_mod]

/-- Settles O28: a word write in range, byte by byte in either order, and the fault entry out of range. -/
theorem storeWordWritesOneWord : Obligations.StoreWordWritesOneWord := by
  refine ⟨rfl, fun m hm => decodesOp_of_row hm fun _ => ⟨rfl, rfl, ⟨rfl, rfl, rfl⟩, rfl⟩, ?_⟩
  rintro s rt rs imm _ rfl
  refine ⟨add_sextImm_eq_bits32 _ _,
    fun hlt hwf => ⟨_, exec_sw_of_lt hlt, writesMemOnly_mem _, fun a => ?byte⟩,
    fun hge => faults_of_outOfRange rt hge (by simp)⟩
  case byte =>
    rw [Memory.read_writeWord hwf]
    cases s.cfg.byteOrder
    case little => rw [byteAt, wordByte_eq_ofNat]
    case big => rw [byteAt, wordByte_eq_ofNat]

end Sys2Proof.Machine

/-! ## The jumps (O25)

A jump writes the pc with `jumpTarget`, whose two parts share no bit, so its number is their sum
(`u32_jumpTarget`). -/

namespace Sys2Proof.Machine

/-! ### The target -/

/-- The high mask keeps the part of a word from bit 28 up (R240). -/
theorem u32_keepHighBits (a : Word) : u32 (a &&& 0xF0000000) = u32 a / 2 ^ 28 * 2 ^ 28 := by
  have hmask : (0xF0000000 : Word) = BitVec.allOnes 32 <<< 28 := by decide
  simp only [u32, hmask, ← BitVec.shiftLeft_ushiftRight, BitVec.toNat_shiftLeft,
    BitVec.toNat_ushiftRight, Nat.shiftRight_eq_div_pow, Nat.shiftLeft_eq]
  omega

/-- The address field, two bits up in a word, is 4·addr: 28 bits, so nothing is lost (R240). -/
theorem u32_addr_shiftLeft (addr : BitVec 26) : u32 (addr.setWidth 32 <<< 2) = 4 * addr.toNat := by
  simp only [u32, BitVec.toNat_shiftLeft, BitVec.toNat_setWidth, Nat.shiftLeft_eq]
  omega

/-- The number of a jump's target: bits 31:28 of the pc, with 4·addr below them (R240). -/
theorem u32_jumpTarget (pc : Word) (addr : BitVec 26) :
    u32 (jumpTarget pc addr) = u32 pc / 2 ^ 28 * 2 ^ 28 + 4 * addr.toNat := by
  have hlow : 4 * addr.toNat < 2 ^ 28 := by omega
  calc u32 (jumpTarget pc addr)
      = u32 (pc &&& 0xF0000000) ||| u32 (addr.setWidth 32 <<< 2) := BitVec.toNat_or _ _
    _ = (u32 pc / 2 ^ 28 * 2 ^ 28) ||| 4 * addr.toNat := by
        rw [u32_keepHighBits, u32_addr_shiftLeft]
    _ = u32 pc / 2 ^ 28 * 2 ^ 28 + 4 * addr.toNat := by
        rw [Nat.mul_comm, Nat.two_pow_add_eq_or_of_lt hlow]

/-- From an instruction in memory the advanced pc has no bit from 28 up, and the target is 4·addr (R115). -/
theorem u32_jumpTarget_of_le {pc : Word} (h : u32 pc ≤ memCapacity) (addr : BitVec 26) :
    u32 (jumpTarget pc addr) = 4 * addr.toNat := by
  have hhigh : u32 pc / 2 ^ 28 = 0 := Nat.div_eq_of_lt (h.trans_lt (by decide))
  rw [u32_jumpTarget, hhigh, Nat.zero_mul, Nat.zero_add]

/-! ### The statement -/

/-- Settles O25: a write of pc, and for `jal` of the link register too, with the target as a number. -/
theorem jumpsTakeTheirTarget : Obligations.JumpsTakeTheirTarget := by
  refine ⟨⟨rfl, rfl⟩, fun m hm => ⟨?_, ?_⟩, fun s addr =>
    ⟨jumpTarget s.pc addr, u32_jumpTarget s.pc addr, fun hle => u32_jumpTarget_of_le hle addr,
      ⟨_, rfl, writesPc_setPc _⟩, ⟨_, rfl, links_setX_setPc _ _⟩⟩⟩
  all_goals exact decodesOp_of_row hm fun _ => ⟨rfl, rfl, rfl, rfl⟩

end Sys2Proof.Machine

/-! ## Faults and the invariant check (O43, O44, O45, O46)

`Effect.faulted` and `StepEffect.faulted` say once what an instruction, and a step, that ends in a fault
has done; O44, O45 and O46 follow from the two. -/

namespace Sys2Proof.Machine

variable {s t : State} {i : Instr} {c : Cause} {p : Word}

/-! ### The invariant check -/

/-- Settles O43: an answer of a chain of tests means that its test fails and every earlier one passes. -/
theorem invariantCheckReportsTheFirstFailure : Obligations.InvariantCheckReportsTheFirstFailure := by
  intro s aligned ordered
  simp only [State.checkInvariants, ite_eq_iff]
  simp [aligned, ordered, memCapacity]

/-- The check passes exactly when all seven tests do (R252). -/
theorem checkInvariants_eq_none_iff : s.checkInvariants = none ↔
    u32 s.pc % 4 = 0 ∧ u32 s.pc < 65532 ∧ u32 (s.x 28) % 4 = 0 ∧ u32 (s.x 29) % 4 = 0 ∧
    u32 (s.x 30) % 4 = 0 ∧
    (0 ≤ s32 (s.x 28) ∧ s32 (s.x 28) < s32 (s.x 29) ∧ s32 (s.x 29) ≤ s32 (s.x 30) ∧
      s32 (s.x 30) < 65532) ∧ s.slot 0 = 0 := by
  obtain ⟨-, -, -, -, -, -, -, hnone⟩ := invariantCheckReportsTheFirstFailure s
  exact hnone

/-- The ZERO_REG test fires only on a slot 0 that is not zero (R252; log 11). -/
theorem slot_zero_ne_of_checkInvariants (h : s.checkInvariants = some .zeroReg) : s.slot 0 ≠ 0 := by
  obtain ⟨-, -, -, -, -, -, hzero, -⟩ := invariantCheckReportsTheFirstFailure s
  obtain ⟨-, -, -, -, -, -, hslot⟩ := hzero.1 h
  exact hslot

/-! ### Faults -/

/-- An instruction of a running machine that ends in a fault is a fault entry at its own address, for a
cause of the table of R255, and has done nothing else. -/
theorem Effect.faulted (h : Effect s i t) (hr : s.run = .running) (hf : t.run = .faulted c p) :
    mayRaise s.cfg i c ∧ p = s.instrAddr ∧ t = s.raiseAt c p := by
  cases h with
  | fault c' hc =>
    cases hf
    exact ⟨hc, rfl, rfl⟩
  | exit => cases hf
  | nothing | hiLo | jump | storeByte | storeWord | trace => cases hr.symm.trans hf
  | register | link | readChar => simp [hr] at hf
  | printStr => simp [hr] at hf
  | printChar => simp [servicePrintChar, hr] at hf

/-- A step that ends in a fault is a fault entry at the step's own address: for the kind the check
reports, from the state the step began with, or from the state dispatch began in, for another cause
(R257). -/
theorem StepEffect.faulted (h : StepEffect s t) (hr : s.run = .running)
    (hf : t.run = .faulted c p) : p = s.pc ∧
    ((∃ kind, s.checkInvariants = some kind ∧ c = .invariantViolation kind ∧ t = s.raiseAt c p) ∨
      (s.checkInvariants = none ∧ (∀ kind, c ≠ .invariantViolation kind) ∧
        t = s.begun.raiseAt c p)) := by
  cases h with
  | violation kind hc =>
    cases hf
    exact ⟨rfl, .inl ⟨kind, hc, rfl, rfl⟩⟩
  | unknownOpcode op hc =>
    cases hf
    exact ⟨rfl, .inr ⟨hc, nofun, rfl⟩⟩
  | unknownFunctionCode funct hc =>
    cases hf
    exact ⟨rfl, .inr ⟨hc, nofun, rfl⟩⟩
  | instruction i _ hc _ he =>
    obtain ⟨hmay, hp, ht⟩ := he.faulted (by simpa using hr) hf
    refine ⟨hp.trans (State.begun_instrAddr s), .inr ⟨hc, ?_, ht⟩⟩
    rintro kind rfl
    exact hmay

/-- Settles O45: by what an instruction that ends in a fault has done. -/
theorem faultsEachInstructionMayRaise : Obligations.FaultsEachInstructionMayRaise := by
  intro i s t c p hr h hf
  obtain ⟨hc, hp, -⟩ := (exec_effect h).faulted hr hf
  exact ⟨hc, hp⟩

/-- Settles O44: by what a step that ends in a fault has done. -/
theorem faultsArePrecise : Obligations.FaultsArePrecise := by
  intro s t c p h hf
  obtain ⟨hp, ⟨kind, hkind, -, rfl⟩ | ⟨hnone, -, rfl⟩⟩ :=
    (step_effect h).faulted (running_of_step h) hf
  · exact ⟨hp, step_of_faulted hf, fun _ => faults_raiseAt c p,
      fun hpass => nomatch hpass.symm.trans hkind⟩
  · exact ⟨hp, step_of_faulted hf, fun hfail => absurd hnone hfail,
      fun _ => ⟨faults_raiseAt c p, State.begun_pc s⟩⟩

/-- Settles O46: such a fault means that the check read a slot 0 that is not zero. -/
theorem zeroRegTestNeverFires : Obligations.ZeroRegTestNeverFires := by
  intro s t p hs h hf
  obtain ⟨-, ⟨kind, hkind, hcause, -⟩ | ⟨-, hcause, -⟩⟩ :=
    (step_effect h).faulted (running_of_step h) hf
  · cases hcause
    exact slot_zero_ne_of_checkInvariants hkind hs.zeroSlot
  · exact hcause .zeroReg rfl

end Sys2Proof.Machine

/-! ## Traces and dumps (O52, O51)

`cutInto_linesOf` says what cutting a list into lines gives, and `dumpEntriesFrom_concat` what one more
word adds to a range dump. -/

namespace Sys2Proof.Machine

variable {s : State}

/-! ### Lines -/

/-- `ls` cuts the list `as` into lines of `n` entries, the last of 1 to `n` (R264, R266). -/
def CutInto {α : Type} (n : Nat) (as : List α) (ls : List (List α)) : Prop :=
  ls.flatten = as ∧ (∀ l ∈ ls, 1 ≤ l.length ∧ l.length ≤ n) ∧ ∀ l ∈ ls.dropLast, l.length = n

/-- A full line in front. -/
theorem CutInto.cons {α : Type} {n : Nat} {as line : List α} {ls : List (List α)}
    (h : CutInto n as ls) (hn : 0 < n) (hline : line.length = n) :
    CutInto n (line ++ as) (line :: ls) := by
  obtain ⟨hflat, hlen, hfull⟩ := h
  refine ⟨by rw [List.flatten_cons, hflat], ?_, ?_⟩
  · exact List.forall_mem_cons.2 ⟨by omega, hlen⟩
  · cases ls with
    | nil => simp
    | cons l ls => exact List.forall_mem_cons.2 ⟨hline, hfull⟩

/-- With a line begun that is not full, the cutting goes on from that line's entries. -/
theorem cutInto_linesFrom {α : Type} {n : Nat} (as cur : List α) (hcur : cur.length < n) :
    CutInto n (cur ++ as) (linesFrom n cur as) := by
  induction as generalizing cur with
  | nil =>
    cases cur with
    | nil => simp [CutInto, linesFrom]
    | cons a cur => simpa [CutInto, linesFrom] using hcur.le
  | cons a as ih =>
    rw [List.append_cons, linesFrom]
    split
    case isTrue hfull => exact (ih [] (by simp; omega)).cons (by omega) (by simpa using hfull)
    case isFalse hopen => exact ih (cur ++ [a]) (by simp; omega)

theorem cutInto_linesOf {α : Type} {n : Nat} (hn : 0 < n) (as : List α) :
    CutInto n as (linesOf n as) :=
  cutInto_linesFrom as [] hn

/-- Where the cuts fall does not depend on the entries. -/
theorem linesFrom_map {α β : Type} (f : α → β) (n : Nat) (cur as : List α) :
    linesFrom n (cur.map f) (as.map f) = (linesFrom n cur as).map (List.map f) := by
  induction as generalizing cur with
  | nil => cases cur <;> rfl
  | cons a as ih =>
    have hnext : cur.map f ++ [f a] = (cur ++ [a]).map f := by simp
    rw [List.map_cons, linesFrom, linesFrom, List.length_map, hnext, ih]
    split
    · rw [List.map_cons, ← ih, List.map_nil]
    · rfl

theorem linesOf_map {α β : Type} (f : α → β) (n : Nat) (as : List α) :
    linesOf n (as.map f) = (linesOf n as).map (List.map f) :=
  linesFrom_map f n [] as

/-- Settles O51: the lines hold the registers in order, and where they are cut depends on their number
alone. -/
theorem traceDumpsTheRegisters : Obligations.TraceDumpsTheRegisters := by
  intro s
  have hlines : (linesOf 6 (List.finRange 32)).map List.length = [6, 6, 6, 6, 6, 2] := by decide
  refine ⟨?flatten, ?lengths, rfl, ?hiLo, ?values⟩
  case flatten =>
    obtain ⟨hflat, -⟩ := cutInto_linesOf (n := 6) (by decide)
      ((List.finRange 32).map fun i => (i, s.x i))
    exact hflat
  case lengths =>
    rw [← hlines]
    simp only [traceRecord, registerDump, linesOf_map, List.map_map, Function.comp_def,
      List.length_map]
  case hiLo => simp [traceRecord, hiLoDump]
  case values => simp [traceRecord, hiLoDump]

/-! ### Runs of zeros -/

/-- Whether the word before the next entry is zero: the last of `ws`, or what `inRun` says if there is
none (R266). -/
def lastIsZero (inRun : Bool) (ws : List (Word × Word)) : Bool :=
  (ws.getLast?.map fun w => decide (w.2 = 0)).getD inRun

theorem lastIsZero_cons (inRun : Bool) (a v : Word) (ws : List (Word × Word)) :
    lastIsZero inRun ((a, v) :: ws) = lastIsZero (decide (v = 0)) ws := by
  cases h : ws.getLast? <;> simp [lastIsZero, List.getLast?_cons, h]

/-- The dump of one word: nothing inside a run of zeros, else an entry, marked if it is zero. -/
def dumpEntry (inRun : Bool) (a v : Word) : List DumpEntry :=
  if v = 0 ∧ inRun = true then [] else [⟨a, v, decide (v = 0)⟩]

theorem dumpEntriesFrom_cons (inRun : Bool) (a v : Word) (ws : List (Word × Word)) :
    dumpEntriesFrom inRun ((a, v) :: ws) =
      dumpEntry inRun a v ++ dumpEntriesFrom (decide (v = 0)) ws := by
  by_cases hv : v = 0#32 <;> cases inRun <;> simp [dumpEntriesFrom, dumpEntry, hv]

/-- The last word of a range is dumped by itself and the word before it (R266). -/
theorem dumpEntriesFrom_concat (inRun : Bool) (ws : List (Word × Word)) (a v : Word) :
    dumpEntriesFrom inRun (ws ++ [(a, v)]) =
      dumpEntriesFrom inRun ws ++ dumpEntry (lastIsZero inRun ws) a v := by
  induction ws generalizing inRun with
  | nil => simp [dumpEntriesFrom_cons, dumpEntriesFrom, lastIsZero]
  | cons w ws ih =>
    rw [List.cons_append, dumpEntriesFrom_cons, dumpEntriesFrom_cons, ih, lastIsZero_cons,
      List.append_assoc]

/-! ### The ranges -/

/-- The words from the aligned address `a`, by their addresses. -/
theorem wordsFrom_of_aligned {a : Word} (ha : u32 a % 4 = 0) (n : Nat) :
    wordsFrom s (u32 a / 4) n = (List.range n).map fun j =>
      (a + BitVec.ofNat 32 (4 * j), s.mem.readWord s.cfg.byteOrder (u32 a / 4 + j)) := by
  refine List.map_congr_left fun j _ => ?_
  have haddr : BitVec.ofNat 32 (4 * (u32 a / 4 + j)) = a + BitVec.ofNat 32 (4 * j) := by
    have : 4 * (u32 a / 4 + j) = u32 a + 4 * j := by omega
    rw [this, BitVec.ofNat_add, BitVec.ofNat_toNat, BitVec.setWidth_eq]
  rw [haddr]

/-- Two non-negative readings are in the order of the unsigned ones: the check reads GP, SP and FP
signed (R252), the dump does not. -/
theorem u32_le_of_s32_le {a b : Word} (ha : 0 ≤ s32 a) (h : s32 a ≤ s32 b) : u32 a ≤ u32 b := by
  have hb := ha.trans h
  simp only [s32, u32, BitVec.toInt_eq_toNat_cond] at *
  split at h <;> split at h <;> omega

/-- Settles O52: the dump of a list with one more word at its end, the cutting into lines, and the two
ranges, whose ends the check finds aligned and in order. -/
theorem rangeDumpCollapsesZeroRuns : Obligations.RangeDumpCollapsesZeroRuns := by
  refine ⟨⟨rfl, fun ws a v => ?_⟩, cutInto_linesOf (by decide), fun s hc => ?_⟩
  · rw [dumpEntries, dumpEntriesFrom_concat]
    cases h : ws.getLast? <;> simp [dumpEntry, lastIsZero, h, dumpEntries]
  · obtain ⟨-, -, hgp, hsp, hfp, ⟨h0, hlt, hle, -⟩, -⟩ := checkInvariants_eq_none_iff.1 hc
    have hdata : u32 (s.x 29) / 4 - u32 (s.x 28) / 4 =
        (u32 (s.x 29) - u32 (s.x 28)) / 4 := by omega
    have hstack : u32 (s.x 30) / 4 + 1 - u32 (s.x 29) / 4 =
        (u32 (s.x 30) - u32 (s.x 29)) / 4 + 1 := by
      have := u32_le_of_s32_le (h0.trans hlt.le) hle
      omega
    constructor
    · rw [traceRecord, dataDump, wordsFrom_of_aligned hgp, hdata]
    · rw [traceRecord, stackDump, wordsFrom_of_aligned hsp, hstack]

end Sys2Proof.Machine

/-! ## Reset (O53, O55, O54, O56)

`Memory.readWord_copyWords_of_lt` and `Memory.readWord_copyWords_of_ne` say what a copy of words leaves in
memory; `loadedState` names the state an admissible load answers, with a lemma for each piece of it. -/

namespace Sys2Proof.Machine

variable {s : State} {c : Config} {h : Header} {text data : List Word} {m : Memory} {o : ByteOrder}

/-! ### Copying words -/

theorem Memory.copyWords_wf (k : Nat) (vs : List Word) (hm : m.wf = true) :
    (m.copyWords o k vs).wf = true := by
  induction vs generalizing m k with
  | nil => exact hm
  | cons v vs ih => exact ih (k + 1) (Memory.writeWord_wf o k v hm)

/-- A word no copied word lands on reads as before. -/
theorem Memory.readWord_copyWords_of_ne {k k' : Nat} {vs : List Word}
    (hne : ∀ j < vs.length, k + j ≠ k') : (m.copyWords o k vs).readWord o k' = m.readWord o k' := by
  induction vs generalizing m k with
  | nil => rfl
  | cons v vs ih =>
    have hhead : k' ≠ k := (hne 0 (by simp)).symm
    have htail : ∀ j < vs.length, k + 1 + j ≠ k' := fun j hj => by
      have := hne (j + 1) (by simpa using hj)
      omega
    rw [Memory.copyWords, ih htail, Memory.readWord_writeWord_ne o v hhead]

/-- Word `k + j` reads the `j`-th copied word. -/
theorem Memory.readWord_copyWords_of_lt (hm : m.wf = true) {k j : Nat} {vs : List Word}
    (hj : j < vs.length) : some ((m.copyWords o k vs).readWord o (k + j)) = vs[j]? := by
  induction vs generalizing m k j with
  | nil => simp at hj
  | cons v vs ih =>
    rw [Memory.copyWords]
    cases j with
    | zero =>
      have hrest : ∀ j < vs.length, k + 1 + j ≠ k := fun j _ => by omega
      rw [Nat.add_zero k, Memory.readWord_copyWords_of_ne hrest,
        Memory.readWord_writeWord_same o k v hm, List.getElem?_cons_zero]
    | succ j =>
      rw [Nat.add_comm j, ← Nat.add_assoc, ih (Memory.writeWord_wf o k v hm) (by simpa using hj),
        Nat.add_comm 1, List.getElem?_cons_succ]

/-- Memory that nothing has written holds zero words (R62; log 13). -/
@[simp] theorem Memory.readWord_nil (k : Nat) : Memory.readWord o [] k = 0 := by
  show wordOfBytes o 0 0 0 0 = 0
  cases o <;> decide

/-! ### The image in memory -/

theorem admissible_iff : admissible h text data = true ↔
    u32 h.textStart + 4 * textWords h ≤ 65532 ∧ u32 h.dataStart + 4 * dataWords h ≤ 65532 ∧
      textWords h ≤ text.length ∧ dataWords h ≤ data.length := by
  simp [admissible, memCapacity, and_assoc]

/-- Each data word is in memory (R292). -/
theorem readWord_loadedMemory_data (ha : admissible h text data = true) {j : Nat}
    (hj : j < dataWords h) :
    some ((loadedMemory o h text data).readWord o (u32 h.dataStart / 4 + j)) = data[j]? := by
  obtain ⟨-, -, -, hlen⟩ := admissible_iff.1 ha
  have hcopied : j < (data.take (dataWords h)).length := by rwa [List.length_take_of_le hlen]
  rw [loadedMemory, Memory.readWord_copyWords_of_lt (Memory.copyWords_wf _ _ Memory.wf_nil) hcopied,
    List.getElem?_take_of_lt hj]

/-- A word outside the data segment is as the copy of the text left it (R292). -/
theorem readWord_loadedMemory_of_ne_data {k : Nat}
    (hdata : ∀ j < dataWords h, u32 h.dataStart / 4 + j ≠ k) :
    (loadedMemory o h text data).readWord o k =
      (Memory.copyWords o [] (u32 h.textStart / 4) (text.take (textWords h))).readWord o k :=
  Memory.readWord_copyWords_of_ne fun j hj => hdata j (hj.trans_le (List.length_take_le _ _))

/-- Each text word that no data word overwrites is in memory (R292). -/
theorem readWord_loadedMemory_text (ha : admissible h text data = true) {j : Nat}
    (hj : j < textWords h)
    (hdata : ∀ j' < dataWords h, u32 h.dataStart / 4 + j' ≠ u32 h.textStart / 4 + j) :
    some ((loadedMemory o h text data).readWord o (u32 h.textStart / 4 + j)) = text[j]? := by
  obtain ⟨-, -, hlen, -⟩ := admissible_iff.1 ha
  have hcopied : j < (text.take (textWords h)).length := by rwa [List.length_take_of_le hlen]
  rw [readWord_loadedMemory_of_ne_data hdata,
    Memory.readWord_copyWords_of_lt Memory.wf_nil hcopied, List.getElem?_take_of_lt hj]

/-- Every word outside both segments is zero (R292). -/
theorem readWord_loadedMemory_outside {k : Nat}
    (htext : ∀ j < textWords h, u32 h.textStart / 4 + j ≠ k)
    (hdata : ∀ j < dataWords h, u32 h.dataStart / 4 + j ≠ k) :
    (loadedMemory o h text data).readWord o k = 0 := by
  rw [readWord_loadedMemory_of_ne_data hdata,
    Memory.readWord_copyWords_of_ne fun j hj => htext j (hj.trans_le (List.length_take_le _ _)),
    Memory.readWord_nil]

/-! ### The loaded state -/

/-- What `load` answers for an admissible image. -/
def loadedState (c : Config) (h : Header) (text data : List Word) : State :=
  ((({ blankState c with mem := loadedMemory c.byteOrder h text data }.setX gpReg
    h.dataStart).setX spReg h.stackBottom).setX fpReg h.stackBottom).setPc h.textStart

theorem load_eq_some_iff :
    load c h text data = some s ↔ admissible h text data = true ∧ loadedState c h text data = s := by
  simp [load, loadedState]

@[simp] theorem loadedState_gp : (loadedState c h text data).x 28 = h.dataStart := by
  simp [loadedState, State.setX_x, gpReg, spReg, fpReg, zeroReg]

@[simp] theorem loadedState_sp : (loadedState c h text data).x 29 = h.stackBottom := by
  simp [loadedState, State.setX_x, gpReg, spReg, fpReg, zeroReg]

@[simp] theorem loadedState_fp : (loadedState c h text data).x 30 = h.stackBottom := by
  simp [loadedState, State.setX_x, gpReg, spReg, fpReg, zeroReg]

@[simp] theorem loadedState_pc : (loadedState c h text data).pc = h.textStart := rfl

@[simp] theorem loadedState_run : (loadedState c h text data).run = .running := by
  simp [loadedState, blankState]

@[simp] theorem loadedState_mem :
    (loadedState c h text data).mem = loadedMemory c.byteOrder h text data := by
  simp [loadedState]

theorem blankState_slot (c : Config) (m : Memory) (i : RegIx) :
    State.slot { blankState c with mem := m } i = 0 := by
  simp [State.slot, blankState]

theorem loadedState_slot {i : RegIx} (hi : i ∉ [28, 29, 30]) :
    (loadedState c h text data).slot i = 0 := by
  simp only [List.mem_cons, List.not_mem_nil, or_false, not_or] at hi
  simp [loadedState, State.setX_slot, hi, blankState_slot]

/-! ### The statements -/

/-- Settles O53: by the pieces of the loaded state, and what the two copies leave in memory. -/
theorem loadSetsTheState : Obligations.LoadSetsTheState := by
  intro c h text data ha
  refine ⟨loadedState c h text data, load_eq_some_iff.2 ⟨ha, rfl⟩, loadedState_gp, loadedState_sp,
    loadedState_fp, fun i => loadedState_slot, ?hi, ?lo, loadedState_pc, loadedState_run, ?trace,
    ?cfg, ?data, ?text, ?outside⟩
  case hi | lo | trace | cfg => simp [loadedState, blankState]
  all_goals rw [loadedState_mem]
  case data => exact fun j => readWord_loadedMemory_data ha
  case text => exact fun j => readWord_loadedMemory_text ha
  case outside => exact fun k => readWord_loadedMemory_outside

/-- Settles O55: the check of the loaded state is a check of the header, and the step of a failed
check. -/
theorem invariantsHoldIffTheHeaderIsWellFormed :
    Obligations.InvariantsHoldIffTheHeaderIsWellFormed := by
  intro c h text data s hload
  obtain ⟨-, rfl⟩ := load_eq_some_iff.1 hload
  constructor
  · have hslot : (loadedState c h text data).slot 0 = 0 := loadedState_slot (by decide)
    rw [checkInvariants_eq_none_iff, loadedState_pc, loadedState_gp, loadedState_sp,
      loadedState_fp]
    simp only [hslot, le_refl, true_and, and_true]
    tauto
  · intro hfail
    obtain ⟨kind, hkind⟩ := Option.ne_none_iff_exists'.1 hfail
    exact ⟨_, kind, step_of_violation loadedState_run hkind, faults_raiseAt _ _⟩

/-- Settles O54: `load` answers a state exactly for an admissible image. -/
theorem loadRefusesAnInadmissibleImage : Obligations.LoadRefusesAnInadmissibleImage := by
  intro c h text data
  have hsome : (load c h text data).isSome = true ↔ admissible h text data = true := by
    simp [load]
  exact hsome.trans admissible_iff

/-- Settles O56: by evaluation, since the header, the image and the parameters are fixed. -/
theorem resetIsALoadOfTheNamedHeader : Obligations.ResetIsALoadOfTheNamedHeader :=
  ⟨by decide, by decide, by decide, rfl, by decide⟩

end Sys2Proof.Machine
